-- ==== Sys2Proof/Word.lean ====
section
/-! DEFINITION. The words of the machine (00_scope.md R7, R10, R12): a word, an address, a byte and a register
number. Addition on `BitVec 16` is addition modulo 2^16, `&&&` the bitwise and, `~~~` the complement of all 16
bits, as R12 says. -/

namespace Sys2Proof

/-- A 16-bit word: a register, a memory cell or an instruction (R7, R10). -/
abbrev Word := BitVec 16

/-- A word address. An address is 16 bits and every value names one cell (R34, R40). -/
abbrev Addr := BitVec 16

/-- An 8-bit character or console byte (R9). -/
abbrev Byte := BitVec 8

/-- The number of a general register, 0 to 7 (R21). -/
abbrev Reg := Fin 8

end Sys2Proof
end

