-- ==== Sys2Proof/Syntax.lean ====
section
/-! DEFINITION. The decoded instructions (30_encoding.md R69): one constructor per row of spec/opcode_table.json.
Register operands are register numbers. `imm` and `off` are words already sign-extended and `vect` a word already
zero-extended, as R69 says; `Instr.wellFormed` (WellFormed.lean) says which words an encoding can give. -/

namespace Sys2Proof

/-- The 19 decoded instructions of R69, in the order of the opcode table. -/
inductive Instr where
  /-- Conditional branch (R110). -/
  | br (n z p : Bool) (off : Word)
  /-- Add register to register (R101). -/
  | addr (dr sr1 sr2 : Reg)
  /-- Add immediate to register (R102). -/
  | addi (dr sr1 : Reg) (imm : Word)
  /-- Load PC-relative (R120). -/
  | ld (dr : Reg) (off : Word)
  /-- Store PC-relative (R124). -/
  | st (sr : Reg) (off : Word)
  /-- Call subroutine, PC-relative (R112). -/
  | jsr (off : Word)
  /-- Call subroutine through a register (R113). -/
  | jsrr (baseR : Reg)
  /-- Bitwise and of two registers (R103). -/
  | andr (dr sr1 sr2 : Reg)
  /-- Bitwise and of a register with an immediate (R104). -/
  | andi (dr sr1 : Reg) (imm : Word)
  /-- Load base plus offset (R122). -/
  | ldr (dr baseR : Reg) (off : Word)
  /-- Store base plus offset (R126). -/
  | str (sr baseR : Reg) (off : Word)
  /-- Return from interrupt: illegal to execute (R139). -/
  | rti
  /-- Bitwise complement (R105). -/
  | not (dr sr : Reg)
  /-- Load indirect (R121). -/
  | ldi (dr : Reg) (off : Word)
  /-- Store indirect (R125). -/
  | sti (sr : Reg) (off : Word)
  /-- Jump through a register (R111). -/
  | jmp (baseR : Reg)
  /-- The reserved opcode: illegal to execute (R140). -/
  | res
  /-- Load effective address (R123). -/
  | lea (dr : Reg) (off : Word)
  /-- Console service call (R130). -/
  | trap (vect : Word)
deriving DecidableEq, Repr

/-- The mnemonic of the instruction's row in spec/opcode_table.json. -/
def Instr.mnemonic : Instr → String
  | .br _ _ _ _ => "BR"
  | .addr _ _ _ => "ADDR"
  | .addi _ _ _ => "ADDI"
  | .ld _ _ => "LD"
  | .st _ _ => "ST"
  | .jsr _ => "JSR"
  | .jsrr _ => "JSRR"
  | .andr _ _ _ => "ANDR"
  | .andi _ _ _ => "ANDI"
  | .ldr _ _ _ => "LDR"
  | .str _ _ _ => "STR"
  | .rti => "RTI"
  | .not _ _ => "NOT"
  | .ldi _ _ => "LDI"
  | .sti _ _ => "STI"
  | .jmp _ => "JMP"
  | .res => "RES"
  | .lea _ _ => "LEA"
  | .trap _ => "TRAP"

end Sys2Proof
end

