-- ==== Sys2Proof/WellFormed.lean ====
section
/-! DEFINITION. Which instructions an encoding can give (30_encoding.md R65, R69): the range of every immediate and
offset. Register numbers are in range by their type (R64). -/

namespace Sys2Proof

/-- `v`, read as a two's-complement number, fits a signed field of `w` bits: -2^(w-1) to 2^(w-1) - 1 (R65). -/
def fitsSigned (w : Nat) (v : Word) : Bool :=
  decide (-(2 ^ (w - 1) : Int) ≤ v.toInt) && decide (v.toInt < (2 ^ (w - 1) : Int))

/-- `v` is a zero-extended 8-bit value, 0x0000 to 0x00FF (R65, R69). -/
def fitsByte (v : Word) : Bool :=
  decide (v.toNat < 256)

/-- The immediate, offset or vector is one its field can hold (R65). -/
def Instr.wellFormed : Instr → Bool
  | .br _ _ _ off => fitsSigned 9 off
  | .addr _ _ _ => true
  | .addi _ _ imm => fitsSigned 5 imm
  | .ld _ off => fitsSigned 9 off
  | .st _ off => fitsSigned 9 off
  | .jsr off => fitsSigned 11 off
  | .jsrr _ => true
  | .andr _ _ _ => true
  | .andi _ _ imm => fitsSigned 5 imm
  | .ldr _ _ off => fitsSigned 6 off
  | .str _ _ off => fitsSigned 6 off
  | .rti => true
  | .not _ _ => true
  | .ldi _ off => fitsSigned 9 off
  | .sti _ off => fitsSigned 9 off
  | .jmp _ => true
  | .res => true
  | .lea _ off => fitsSigned 9 off
  | .trap vect => fitsByte vect

end Sys2Proof
end

