-- ==== Sys2Proof/Decode.lean ====
section
/-! DEFINITION. The decoder of 30_encoding.md R70, total on all words (R61), the encoder of R75, and the opcode
table's masks. The opcode numbers and the places of the register and flag fields are the spec's own recovery of a
table its source lost (92_eei_decisions.md D2 to D6; log entry 1, PRESUMED). There is nothing to reject: every
16-bit word decodes (R61, R71). -/

namespace Sys2Proof

/-- `sext_w`: replicate the field's top bit into the bits above it (R13). -/
def sext {w : Nat} (f : BitVec w) : Word :=
  f.signExtend 16

/-- `zext_8`: the bits above bit 7 are zero (R13). -/
def zext8 (f : Byte) : Word :=
  f.setWidth 16

/-- The field of `n` bits of `w` whose lowest bit is bit `lo` (R10). -/
def field (w : Word) (lo n : Nat) : BitVec n :=
  w.extractLsb' lo n

/-- The register field whose lowest bit is bit `lo`: the field value is the register number (R64). -/
def regField (w : Word) (lo : Nat) : Reg :=
  (field w lo 3).toFin

/-- `decode(ir)` of R70: four opcode bits `ir[15:12]`, then bit 5 (ADD, AND) or bit 11 (JSR) where R63 says. -/
def decode (ir : Word) : Instr :=
  match ir.getLsbD 15, ir.getLsbD 14, ir.getLsbD 13, ir.getLsbD 12 with
  | false, false, false, false =>
    .br (ir.getLsbD 11) (ir.getLsbD 10) (ir.getLsbD 9) (sext (field ir 0 9))
  | false, false, false, true =>
    if ir.getLsbD 5 then .addi (regField ir 9) (regField ir 6) (sext (field ir 0 5))
    else .addr (regField ir 9) (regField ir 6) (regField ir 0)
  | false, false, true, false => .ld (regField ir 9) (sext (field ir 0 9))
  | false, false, true, true => .st (regField ir 9) (sext (field ir 0 9))
  | false, true, false, false =>
    if ir.getLsbD 11 then .jsr (sext (field ir 0 11)) else .jsrr (regField ir 6)
  | false, true, false, true =>
    if ir.getLsbD 5 then .andi (regField ir 9) (regField ir 6) (sext (field ir 0 5))
    else .andr (regField ir 9) (regField ir 6) (regField ir 0)
  | false, true, true, false => .ldr (regField ir 9) (regField ir 6) (sext (field ir 0 6))
  | false, true, true, true => .str (regField ir 9) (regField ir 6) (sext (field ir 0 6))
  | true, false, false, false => .rti
  | true, false, false, true => .not (regField ir 9) (regField ir 6)
  | true, false, true, false => .ldi (regField ir 9) (sext (field ir 0 9))
  | true, false, true, true => .sti (regField ir 9) (sext (field ir 0 9))
  | true, true, false, false => .jmp (regField ir 6)
  | true, true, false, true => .res
  | true, true, true, false => .lea (regField ir 9) (sext (field ir 0 9))
  | true, true, true, true => .trap (zext8 (field ir 0 8))

/-- A register number as its 3-bit field (R64). -/
def regBits (r : Reg) : BitVec 3 :=
  BitVec.ofFin r

/-- The low `n` bits of a word: the truncation `f5`, `f6`, `f9`, `f11` of R75. -/
def lowBits (n : Nat) (v : Word) : BitVec n :=
  v.setWidth n

/-- One flag as a 1-bit field. -/
def flagBit (b : Bool) : BitVec 1 :=
  BitVec.ofBool b

/-- `encode` of R75, laid out field by field as R67 draws the formats: ignored bits are 0, but ones in NOT. -/
def encode : Instr → Word
  | .br n z p off => 0b0000#4 ++ flagBit n ++ flagBit z ++ flagBit p ++ lowBits 9 off
  | .addr dr sr1 sr2 => 0b0001#4 ++ regBits dr ++ regBits sr1 ++ 0b000#3 ++ regBits sr2
  | .addi dr sr1 imm => 0b0001#4 ++ regBits dr ++ regBits sr1 ++ 0b1#1 ++ lowBits 5 imm
  | .ld dr off => 0b0010#4 ++ regBits dr ++ lowBits 9 off
  | .st sr off => 0b0011#4 ++ regBits sr ++ lowBits 9 off
  | .jsr off => 0b01001#5 ++ lowBits 11 off
  | .jsrr baseR => 0b0100000#7 ++ regBits baseR ++ 0b000000#6
  | .andr dr sr1 sr2 => 0b0101#4 ++ regBits dr ++ regBits sr1 ++ 0b000#3 ++ regBits sr2
  | .andi dr sr1 imm => 0b0101#4 ++ regBits dr ++ regBits sr1 ++ 0b1#1 ++ lowBits 5 imm
  | .ldr dr baseR off => 0b0110#4 ++ regBits dr ++ regBits baseR ++ lowBits 6 off
  | .str sr baseR off => 0b0111#4 ++ regBits sr ++ regBits baseR ++ lowBits 6 off
  | .rti => 0x8000#16
  | .not dr sr => 0b1001#4 ++ regBits dr ++ regBits sr ++ 0b111111#6
  | .ldi dr off => 0b1010#4 ++ regBits dr ++ lowBits 9 off
  | .sti sr off => 0b1011#4 ++ regBits sr ++ lowBits 9 off
  | .jmp baseR => 0b1100000#7 ++ regBits baseR ++ 0b000000#6
  | .res => 0xD000#16
  | .lea dr off => 0b1110#4 ++ regBits dr ++ lowBits 9 off
  | .trap vect => 0b11110000#8 ++ lowBits 8 vect

/-- The bits of the instruction's format that the decoder ignores, the `-` bits of R67 and R68. -/
def Instr.ignoredBits : Instr → Word
  | .br _ _ _ _ => 0x0000#16
  | .addr _ _ _ => 0x0018#16
  | .addi _ _ _ => 0x0000#16
  | .ld _ _ => 0x0000#16
  | .st _ _ => 0x0000#16
  | .jsr _ => 0x0000#16
  | .jsrr _ => 0x063F#16
  | .andr _ _ _ => 0x0018#16
  | .andi _ _ _ => 0x0000#16
  | .ldr _ _ _ => 0x0000#16
  | .str _ _ _ => 0x0000#16
  | .rti => 0x0FFF#16
  | .not _ _ => 0x003F#16
  | .ldi _ _ => 0x0000#16
  | .sti _ _ => 0x0000#16
  | .jmp _ => 0x0E3F#16
  | .res => 0x0FFF#16
  | .lea _ _ => 0x0000#16
  | .trap _ => 0x0F00#16

/-- One row of spec/opcode_table.json: a word `w` is of the row when `w &&& mask = value`. -/
structure OpcodeRow where
  mnemonic : String
  value : Word
  mask : Word
deriving DecidableEq, Repr

/-- The word is of the row. -/
def OpcodeRow.matches (row : OpcodeRow) (w : Word) : Bool :=
  w &&& row.mask == row.value

/-- The 19 rows of spec/opcode_table.json, its `match` and `mask`, in its order. -/
def opcodeTable : List OpcodeRow :=
  [ ⟨"BR", 0x0000#16, 0xF000#16⟩, ⟨"ADDR", 0x1000#16, 0xF020#16⟩, ⟨"ADDI", 0x1020#16, 0xF020#16⟩,
    ⟨"LD", 0x2000#16, 0xF000#16⟩, ⟨"ST", 0x3000#16, 0xF000#16⟩, ⟨"JSR", 0x4800#16, 0xF800#16⟩,
    ⟨"JSRR", 0x4000#16, 0xF800#16⟩, ⟨"ANDR", 0x5000#16, 0xF020#16⟩, ⟨"ANDI", 0x5020#16, 0xF020#16⟩,
    ⟨"LDR", 0x6000#16, 0xF000#16⟩ ] ++
  [ ⟨"STR", 0x7000#16, 0xF000#16⟩, ⟨"RTI", 0x8000#16, 0xF000#16⟩, ⟨"NOT", 0x9000#16, 0xF000#16⟩,
    ⟨"LDI", 0xA000#16, 0xF000#16⟩, ⟨"STI", 0xB000#16, 0xF000#16⟩, ⟨"JMP", 0xC000#16, 0xF000#16⟩,
    ⟨"RES", 0xD000#16, 0xF000#16⟩, ⟨"LEA", 0xE000#16, 0xF000#16⟩, ⟨"TRAP", 0xF000#16, 0xF000#16⟩ ]

/-- The instruction the decoder reads from the word whose bits are `w`, of which the table numbers `nbits`; the
bits above are 0. Every instruction is one 16-bit word (R60). -/
def decodeTableWord (nbits w : Nat) : Option Instr :=
  some (decode (BitVec.ofNat 16 (w % 2 ^ nbits)))

end Sys2Proof
end

