-- ==== Sys2Proof/Config.lean ====
section
/-! DEFINITION. What one implementation fixes (00_scope.md R8), and the free value of the environment. The parameters
an instruction reads are the data of `Config`; a machine carries one in its state and no step changes it, so that a
statement about every state is a statement about every choice of them (log entry 6). -/

namespace Sys2Proof

/-- The three readings of `PUTSP_ZERO_LOW` (R8, R136; 92_eei_decisions.md D16): what PUTSP does with the zero low byte
of a word whose high byte is not zero. -/
inductive PutspZeroLow where
  /-- The byte 0x00 is written. -/
  | emitNul
  /-- Nothing is written for it. -/
  | skip
  /-- The run is given no meaning (R136). -/
  | refuse
deriving DecidableEq, Repr

/-- The parameters of R8 that an instruction reads. -/
structure Config where
  /-- `KBSR_ADDR`, the keyboard-status address (R31, R51). -/
  kbsrAddr : Addr
  /-- `KBDR_ADDR`, the keyboard-data address (R32, R51). -/
  kbdrAddr : Addr
  /-- `TRAP_GETC` (R130, R132). -/
  trapGetc : Byte
  /-- `TRAP_OUT` (R130, R133). -/
  trapOut : Byte
  /-- `TRAP_PUTS` (R130, R134). -/
  trapPuts : Byte
  /-- `TRAP_IN` (R130, R135). -/
  trapIn : Byte
  /-- `TRAP_PUTSP` (R130, R136). -/
  trapPutsp : Byte
  /-- `HALT_NOTICE`, the bytes the halt routine writes (R137). -/
  haltNotice : List Byte
  /-- `PUTSP_ZERO_LOW` (R136). -/
  putspZeroLow : PutspZeroLow
deriving DecidableEq, Repr

/-! ### The unknown keyboard

What a keyboard answers, as the spec's `KbdPoll` does (20_memory.md R46), and the free value for one of which nothing is
known (R45). -/

/-- What the `k`-th of the coming keyboard operations answers, with these characters waiting and, before each operation,
one more batch arriving: the oldest character, which is taken, or none (R46). -/
def answerAt : Nat → List Byte → (Nat → List Byte) → Option Byte
  | 0, queue, batches => (queue ++ batches 0).head?
  | k + 1, queue, batches => answerAt k (queue ++ batches 0).tail fun i => batches (i + 1)

/-- The answer is a character, and not the zero one. -/
def isKey : Option Byte → Bool
  | some c => c != 0x00#8
  | none => false

/-- `rounds` says how many operations settle whether every answer of this keyboard is a key: from the `n`-th batch on,
with `queue` waiting, so many keys in a row are followed by keys for ever. -/
def Decides (batches : Nat → List Byte) (rounds : Nat → List Byte → Nat) : Prop :=
  ∀ n queue, (∀ k, k < rounds n queue → isKey (answerAt k queue fun i => batches (n + i)) = true) →
    ∀ k, isKey (answerAt k queue fun i => batches (n + i)) = true

/-- A keyboard for ever: what arrives before each operation, and the number of operations that `Decides` asks for. Every
stream of batches has such a number (`decides_exists`), so none is ruled out. -/
inductive FreeKeyboard where
  /-- Nothing arrives. -/
  | silent
  /-- These batches arrive. -/
  | typing (batches : Nat → List Byte) (rounds : Nat → List Byte → Nat) (decides : Decides batches rounds)
deriving Inhabited

/-- The keyboard whose answers nothing constrains (R45). A free value, log entry 7 (DESIGN CHOICE): nothing can evaluate
it, so no proof may know a character of it. -/
opaque Config.freeKeyboard : FreeKeyboard

/-- What arrives before the `n`-th operation. -/
def FreeKeyboard.batch : FreeKeyboard → Nat → List Byte
  | .silent, _ => []
  | .typing batches _ _, n => batches n

/-- How many operations settle whether every answer is a key. -/
def FreeKeyboard.rounds : FreeKeyboard → Nat → List Byte → Nat
  | .silent, _, queue => queue.length + 1
  | .typing _ rounds _, n, queue => rounds n queue

end Sys2Proof
end

