-- ==== Sys2Proof/Machine/Params.lean ====
section
/-! DEFINITION. The values the spec suggests for the parameters it leaves open (00_scope.md R8; 92_eei_decisions.md
D7, D11, D13, D17), used by `State.reset` only, and the one vector number the source fixes. -/

namespace Sys2Proof.Machine

/-- The vector of the halt routine, 0x25: not a parameter (R8, R130). -/
def trapHalt : Byte :=
  0x25#8

/-- The defaults of R8. Log entry 6 (PRESUMED): the two addresses and the five vectors are the family's, the halt
notice is the spec's placeholder "HALT" and 0x0A, and `PUTSP_ZERO_LOW` is the spec's default `refuse`. -/
def defaultConfig : Config where
  kbsrAddr := 0xFE00#16
  kbdrAddr := 0xFE02#16
  trapGetc := 0x20#8
  trapOut := 0x21#8
  trapPuts := 0x22#8
  trapIn := 0x23#8
  trapPutsp := 0x24#8
  haltNotice := [0x48#8, 0x41#8, 0x4C#8, 0x54#8, 0x0A#8]
  putspZeroLow := .refuse

/-- `COND_RESET` (R8, R35). Log entry 4 (DESIGN CHOICE): the spec states no value; its default is Z. -/
def condReset : BitVec 3 :=
  0b010#3

/-- What R8 asks of the parameters: the two keyboard addresses differ, and the six trap numbers are pairwise
different. -/
def configWf (c : Config) : Bool :=
  decide (c.kbsrAddr ≠ c.kbdrAddr) &&
    decide ([c.trapGetc, c.trapOut, c.trapPuts, c.trapIn, c.trapPutsp, trapHalt].Nodup)

end Sys2Proof.Machine
end

