-- ==== Sys2Proof/Machine/State.lean ====
section
/-! DEFINITION. The whole state of the machine (10_state.md R20, R36), the reasons a step can stop, and the state
after reset (R35, R180). State is plain data. -/

namespace Sys2Proof.Machine

/-- One listed memory cell: the number of its address and its word. The smallest addressable unit of this machine
is the 16-bit word (R48), so a cell is a word, not a byte (log entry 2, DESIGN CHOICE). -/
abbrev Cell := Nat × Word

/-- The memory: the cells that do not hold what an unlisted address reads as (`Memory.unlisted`, Ops.lean), by
strictly rising address (`Memory.wf`). -/
abbrev Memory := List Cell

/-- What the keyboard delivers once the batches written down in `kbdArrivals` are used up (20_memory.md R45, R46; log
entry 7, DESIGN CHOICE). A batch is what arrives before one keyboard operation. -/
inductive KbdSupply where
  /-- The environment has reached the end of its input (R46). -/
  | ended
  /-- These batches, over and over for ever. -/
  | repeating (batches : List (List Byte))
  /-- Batches nothing is known about, from the `n`-th of `Config.freeKeyboard` on. -/
  | free (n : Nat)
deriving DecidableEq, Repr

/-- The two routines that walk a string (43_trap_system.md R134, R136). -/
inductive StringRoutine where
  | puts
  | putsp
deriving DecidableEq, Repr

/-- The machine state of R20, the environment's streams of R36, and the parameters of R8. -/
structure State where
  /-- R0 to R7 (R21). -/
  regs : Vector Word 8
  /-- The program counter (R24). -/
  pc : Word
  /-- COND, one-hot: 0b100 negative, 0b010 zero, 0b001 positive (R26). -/
  cond : BitVec 3
  /-- The running flag (R29). -/
  run : Bool
  /-- The memory, the keyboard cells KBSR and KBDR included (R31, R32, R34). -/
  mem : Memory
  /-- `Q`: the characters that have arrived and have not been taken, oldest first (R46). -/
  kbdQueue : List Byte
  /-- The model's own field (log entry 7): the characters that arrive before each of the next keyboard operations; with
  `kbdSupply` it stands for the environment's free choice of R45. -/
  kbdArrivals : List (List Byte)
  /-- The model's own field (log entry 7): what arrives before the operations after those. -/
  kbdSupply : KbdSupply
  /-- The console output stream, oldest byte first (R36, R131). -/
  console : List Byte
  /-- The model's own field (log entry 13): the string routine of the current step, when that step never ends because the
  walk comes to no zero word (R134, R155). None in every other case: a walk that ends does so in the one step of its TRAP
  (R153). -/
  routine : Option StringRoutine
  /-- The parameters of R8; fixed for the machine (log entry 6). -/
  cfg : Config
deriving DecidableEq, Repr

/-- The two opcodes that decode and may not be executed (R139, R140). -/
inductive IllegalOp where
  | rti
  | res
deriving DecidableEq, Repr

/-- The reasons of `raise Fatal(reason)` (R15, R160). -/
inductive FatalReason where
  /-- `IllegalOpcode(RTI)` and `IllegalOpcode(RES)`. -/
  | illegalOpcode (op : IllegalOp)
  /-- `UnknownTrapVector(v)`. -/
  | unknownTrapVector (vect : Word)
deriving DecidableEq, Repr

/-- Why a machine stops. -/
inductive Fault where
  /-- The fatal errors of R160, raised by RTI, RES and a TRAP whose vector is none of the six. `frozen` is the state
  the machine is left in, with the effects the instruction had before the `raise` (R154, R161; log entry 11). Safe:
  the spec's own outcome `fault(reason)`. -/
  | fatal (reason : FatalReason) (frozen : State)
deriving DecidableEq, Repr

/-- Why there is no step. -/
inductive Refusal where
  /-- The instruction has no meaning in the model yet; raised by `exec` only. Safe. -/
  | notModelled (mnemonic : String)
  /-- The running flag is clear: the loop has exited normally and takes no step (R150). Raised by `step` only.
  Safe. -/
  | notRunning
  /-- Raised by PUTSP, with the parameter `PUTSP_ZERO_LOW` at `refuse`, at a word with a zero low byte and a non-zero
  high byte: the spec gives the run no meaning (R136; log entry 12). Safe. -/
  | putspZeroLow
deriving DecidableEq, Repr

/-- The state after reset (R35, R180) with no image loaded: general registers zero, running, nothing written to
the console. Log entries: `pc` 5, `cond` 4, memory 3 and the keyboard stream 8 (DESIGN CHOICE), `cfg` 6 (PRESUMED). -/
def State.reset : State where
  regs := Vector.replicate 8 0x0000#16
  pc := 0x0000#16
  cond := condReset
  run := true
  mem := []
  kbdQueue := []
  kbdArrivals := []
  kbdSupply := .ended
  console := []
  routine := none
  cfg := defaultConfig

end Sys2Proof.Machine
end

