-- ==== Sys2Proof/Machine/Flags.lean ====
section
/-! DEFINITION. The condition codes: the update rule `setcc` (10_state.md R27) and the branch test (41_control.md
R110). -/

namespace Sys2Proof.Machine

/-- The value `setcc(v)` gives COND: Z for the zero word, else N or P by bit 15 (R27). -/
def condOf (v : Word) : BitVec 3 :=
  if v = 0x0000#16 then 0b010#3
  else if v.getLsbD 15 then 0b100#3
  else 0b001#3

/-- `setcc(v)` (R27). -/
def State.setCc (s : State) (v : Word) : State :=
  { s with cond := condOf v }

/-- Some requested condition is the one COND holds (R110). -/
def branchTaken (n z p : Bool) (cond : BitVec 3) : Bool :=
  (n && cond == 0b100#3) || (z && cond == 0b010#3) || (p && cond == 0b001#3)

end Sys2Proof.Machine
end

