-- ==== Sys2Proof/Machine/Ops.lean ====
section
/-! DEFINITION. The named operations: registers, memory, the keyboard and console of 00_scope.md R9, the two memory
primitives of 20_memory.md R42 and R43, fetching, and the fatal error of 60_exceptions.md R161, which is the only
exception this machine has. There is no return from it and no return from a trap (R167, R169). -/

namespace Sys2Proof.Machine

/-! ### Memory cells -/

/-- What a cell that is not listed reads as: the default of `MEM_INIT` (R8, R35). Log entry 3 (DESIGN CHOICE). -/
def Memory.unlisted : Word :=
  0x0000#16

/-- The word of the first cell listed for address number `a`. -/
def Memory.lookup : List Cell → Nat → Word
  | [], _ => Memory.unlisted
  | (k, v) :: rest, a => if k = a then v else Memory.lookup rest a

/-- The content `M[a]` (R14). -/
def Memory.read (m : Memory) (a : Addr) : Word :=
  Memory.lookup m a.toNat

/-- The listed cells but those of address number `a`. -/
def Memory.erase : List Cell → Nat → List Cell
  | [], _ => []
  | (k, v) :: rest, a => if k = a then Memory.erase rest a else (k, v) :: Memory.erase rest a

/-- Put a cell before the first one of a greater address. -/
def Memory.insert : List Cell → Nat → Word → List Cell
  | [], a, v => [(a, v)]
  | (k, w) :: rest, a, v =>
    if a < k then (a, v) :: (k, w) :: rest else (k, w) :: Memory.insert rest a v

/-- `M[a] <- v`, keeping the canonical form: a cell that would hold what an unlisted one reads as is not listed. -/
def Memory.write (m : Memory) (a : Addr) (v : Word) : Memory :=
  if v = Memory.unlisted then Memory.erase m a.toNat
  else Memory.insert (Memory.erase m a.toNat) a.toNat v

/-- Every address number in the list is greater than `lo`, they rise strictly, each is an address, and no cell
holds what an unlisted one reads as. -/
def Memory.wfAbove : Option Nat → List Cell → Bool
  | _, [] => true
  | lo, (k, v) :: rest =>
    (match lo with
      | none => true
      | some l => decide (l < k)) &&
      decide (k < 65536) && decide (v ≠ Memory.unlisted) && Memory.wfAbove (some k) rest

/-- The canonical form of a memory. -/
def Memory.wf (m : Memory) : Bool :=
  Memory.wfAbove none m

/-! ### Registers -/

/-- `x[r]` (R14, R21). -/
def State.reg (s : State) (r : Reg) : Word :=
  s.regs[r.val]'r.isLt

/-- `x[r] <- v` (R14, R21). -/
def State.setReg (s : State) (r : Reg) (v : Word) : State :=
  { s with regs := s.regs.set r.val v r.isLt }

/-- `pc <- v` (R14). -/
def State.setPc (s : State) (v : Word) : State :=
  { s with pc := v }

/-- The end of a result-producing instruction: the word goes to its register and sets COND (R17, R28, R100). -/
def State.writeResult (s : State) (r : Reg) (v : Word) : State :=
  (s.setReg r v).setCc v

/-- The link register (R22). -/
abbrev linkReg : Reg :=
  7

/-- `x[7] <- pc`: the link of JSR, JSRR and TRAP (R22, R112, R113, R130, R167). -/
def State.link (s : State) : State :=
  s.setReg linkReg s.pc

/-! ### Keyboard and console (R9, R46, R131) -/

/-- The next batch of the supply. -/
def KbdSupply.batch : KbdSupply → List Byte
  | .ended => []
  | .repeating [] => []
  | .repeating (b :: _) => b
  | .free n => Config.freeKeyboard.batch n

/-- The supply after its next batch. -/
def KbdSupply.later : KbdSupply → KbdSupply
  | .ended => .ended
  | .repeating [] => .repeating []
  | .repeating (b :: bs) => .repeating (bs ++ [b])
  | .free n => .free (n + 1)

/-- The `i`-th of the next batches of the supply. -/
def KbdSupply.batchAt : KbdSupply → Nat → List Byte
  | supply, 0 => supply.batch
  | supply, i + 1 => supply.later.batchAt i

/-- The characters of the first `n` batches. -/
def firstBatches (batches : Nat → List Byte) (n : Nat) : List Byte :=
  (List.range n).flatMap batches

/-- How many operations settle whether every answer is a key, for batches that repeat after `period`: the characters
waiting and those of a period have each been answered by then, and a period of batches that brings too few characters has
left an operation without one. -/
def periodicRounds (batches : Nat → List Byte) (period : Nat) (queue : List Byte) : Nat :=
  period * (queue.length + 1) + queue.length + (firstBatches batches period).length + 1

/-- How many operations settle whether every answer of the supply is a key, with `queue` waiting. -/
def KbdSupply.rounds (supply : KbdSupply) (queue : List Byte) : Nat :=
  match supply with
  | .ended => queue.length + 1
  | .repeating batches => periodicRounds supply.batchAt (max 1 batches.length) queue
  | .free n => Config.freeKeyboard.rounds n queue

/-- The characters that arrive before the coming keyboard operation. -/
def State.kbdBatch (s : State) : List Byte :=
  match s.kbdArrivals with
  | b :: _ => b
  | [] => s.kbdSupply.batch

/-- The supply after the coming keyboard operation: it is used when no batch is written down. -/
def State.kbdSupplyLater (s : State) : KbdSupply :=
  match s.kbdArrivals with
  | _ :: _ => s.kbdSupply
  | [] => s.kbdSupply.later

/-- The characters that arrive before a keyboard operation join the queue (R45, R46; log entry 7, DESIGN CHOICE). -/
def State.kbdArrive (s : State) : State :=
  { s with
    kbdQueue := s.kbdQueue ++ s.kbdBatch
    kbdArrivals := s.kbdArrivals.tail
    kbdSupply := s.kbdSupplyLater }

/-- The characters the state already knows of and that are not taken: those arrived, then those in the batches written
down. -/
def State.kbdKnown (s : State) : List Byte :=
  s.kbdQueue ++ s.kbdArrivals.flatten

/-- How many keyboard operations settle whether every answer is a key: one for each batch written down, which so many
keys in a row leave with the rest of the known characters waiting, and those of the supply. -/
def State.kbdRounds (s : State) : Nat :=
  s.kbdArrivals.length + s.kbdSupply.rounds (s.kbdKnown.drop s.kbdArrivals.length)

/-- Replace what is left of `Q`. -/
def State.setQueue (s : State) (q : List Byte) : State :=
  { s with kbdQueue := q }

/-- Take the first character off `Q`, if there is one. -/
def State.kbdTake (s : State) : Option Byte × State :=
  match s.kbdQueue with
  | [] => (none, s)
  | c :: rest => (some c, s.setQueue rest)

/-- `KbdPoll()` (R46): never waits. -/
def State.kbdPoll (s : State) : Option Byte × State :=
  s.kbdArrive.kbdTake

/-- One attempt of `KbdRead()` (R46): no character means that the step waits (R142). -/
def State.kbdRead (s : State) : Option Byte × State :=
  s.kbdArrive.kbdTake

/-- Leave the string routine, or stay in one that never ends. -/
def State.setRoutine (s : State) (r : Option StringRoutine) : State :=
  { s with routine := r }

/-- `ConOut(b)` for each byte of the list, in order (R9, R131). -/
def State.conOut (s : State) (bs : List Byte) : State :=
  { s with console := s.console ++ bs }

/-- The low byte of a word, `w[7:0]`. -/
def lowByte (w : Word) : Byte :=
  field w 0 8

/-- The high byte of a word, `w[15:8]`. -/
def highByte (w : Word) : Byte :=
  field w 8 8

/-! ### The memory primitives -/

/-- `M[a] <- v` on the state. -/
def State.storeCell (s : State) (a : Addr) (v : Word) : State :=
  { s with mem := s.mem.write a v }

/-- The poll that a read of `KBSR_ADDR` performs first (R42). The words written and that the character is taken are
92_eei_decisions.md D8 to D10 (log entry 15, DEDUCED). -/
def pollKeyboard (s : State) : State :=
  match s.kbdPoll with
  | (some c, t) => (t.storeCell s.cfg.kbsrAddr 0x8000#16).storeCell s.cfg.kbdrAddr (zext8 c)
  | (none, t) => t.storeCell s.cfg.kbsrAddr 0x0000#16

/-- The state after the read of `a`: only a read of `KBSR_ADDR` changes it (R42, R50). -/
def afterRead (s : State) (a : Addr) : State :=
  if a = s.cfg.kbsrAddr then pollKeyboard s else s

/-- `MemRead(a)` (R42): the word and the state after it. -/
def memRead (s : State) (a : Addr) : Word × State :=
  ((afterRead s a).mem.read a, afterRead s a)

/-- `MemWrite(a, v)` (R43): no side effect at any address. -/
def memWrite (s : State) (a : Addr) (v : Word) : State :=
  s.storeCell a v

/-! ### Fetch and the fatal error -/

/-- The fetch of a step (R151): read the word at `pc` through `MemRead`, then increment `pc`. -/
def fetch (s : State) : Word × State :=
  ((memRead s s.pc).1, (memRead s s.pc).2.setPc (s.pc + 1#16))

/-- `raise Fatal(reason)` (R15, R161): the step ends with the fault, nothing is saved, `pc` is not redirected, and
the machine stays as the instruction has left it so far. -/
def raiseFatal (reason : FatalReason) (s : State) : Host.Outcome State Fault Refusal :=
  .fault (.fatal reason s)

end Sys2Proof.Machine
end

