-- ==== Sys2Proof/Machine/Operands.lean ====
section
/-! DEFINITION. The three addressing modes (42_load_store.md R127), all sums modulo 2^16. `s.pc` is the address of
the instruction plus one (10_state.md R24). -/

namespace Sys2Proof.Machine

/-- PC-relative: incremented PC plus offset (R127; also the targets of BR and JSR, R114, and the result of LEA). -/
def eaPcRel (s : State) (off : Word) : Addr :=
  s.pc + off

/-- Base plus offset (R127). -/
def eaBase (s : State) (baseR : Reg) (off : Word) : Addr :=
  s.reg baseR + off

/-- Indirect: the word stored at the PC-relative address, read with a full `MemRead`, and the state after that read
(R121, R125, R127). -/
def eaIndirect (s : State) (off : Word) : Addr × State :=
  memRead s (eaPcRel s off)

end Sys2Proof.Machine
end

