-- ==== Sys2Proof/Machine/Control.lean ====
section
/-! DEFINITION. Control transfer (41_control.md R110 to R113). -/

namespace Sys2Proof.Machine

/-- BR (R110): taken when a requested condition is the one COND holds. -/
def execBr (n z p : Bool) (off : Word) (s : State) : Host.Outcome State Fault Refusal :=
  .next (if branchTaken n z p s.cond then s.setPc (eaPcRel s off) else s)

/-- JMP (R111). -/
def execJmp (baseR : Reg) (s : State) : Host.Outcome State Fault Refusal :=
  .next (s.setPc (s.reg baseR))

/-- JSR (R112): the link and the target both use the incremented PC. -/
def execJsr (off : Word) (s : State) : Host.Outcome State Fault Refusal :=
  .next (s.link.setPc (eaPcRel s off))

/-- JSRR (R113): the link is written first and the base register is read after it, so `JSRR R7` goes on at the next
instruction (92_eei_decisions.md D20; log entry 14, DEDUCED). -/
def execJsrr (baseR : Reg) (s : State) : Host.Outcome State Fault Refusal :=
  .next (s.link.setPc (s.link.reg baseR))

end Sys2Proof.Machine
end

