-- ==== Sys2Proof/Machine/LoadStore.lean ====
section
/-! DEFINITION. Loads, stores and LEA (42_load_store.md R120 to R126). -/

namespace Sys2Proof.Machine

/-- The end of a load: read the word at `ea` with `MemRead`, write it to `dr` and set COND from it. -/
def loadFrom (dr : Reg) (ea : Addr) (s : State) : State :=
  (memRead s ea).2.writeResult dr (memRead s ea).1

/-- LD (R120). -/
def execLd (dr : Reg) (off : Word) (s : State) : Host.Outcome State Fault Refusal :=
  .next (loadFrom dr (eaPcRel s off) s)

/-- LDI (R121): two full reads, the pointer first. -/
def execLdi (dr : Reg) (off : Word) (s : State) : Host.Outcome State Fault Refusal :=
  .next (loadFrom dr (eaIndirect s off).1 (eaIndirect s off).2)

/-- LDR (R122): the base register is read before `dr` is written. -/
def execLdr (dr baseR : Reg) (off : Word) (s : State) : Host.Outcome State Fault Refusal :=
  .next (loadFrom dr (eaBase s baseR off) s)

/-- LEA (R123): no memory access; COND is set from the address. -/
def execLea (dr : Reg) (off : Word) (s : State) : Host.Outcome State Fault Refusal :=
  .next (s.writeResult dr (eaPcRel s off))

/-- ST (R124). -/
def execSt (sr : Reg) (off : Word) (s : State) : Host.Outcome State Fault Refusal :=
  .next (memWrite s (eaPcRel s off) (s.reg sr))

/-- STI (R125): one full read of the pointer, then the write. -/
def execSti (sr : Reg) (off : Word) (s : State) : Host.Outcome State Fault Refusal :=
  .next (memWrite (eaIndirect s off).2 (eaIndirect s off).1 (s.reg sr))

/-- STR (R126). -/
def execStr (sr baseR : Reg) (off : Word) (s : State) : Host.Outcome State Fault Refusal :=
  .next (memWrite s (eaBase s baseR off) (s.reg sr))

end Sys2Proof.Machine
end

