-- ==== Sys2Proof/Machine/Trap.lean ====
section
/-! DEFINITION. TRAP with its six console routines, RTI and RES (43_trap_system.md R130 to R142). A routine is part
of the one step of its TRAP and leaves `pc` at the next instruction (R130, R153); a string routine that never ends takes up
every later step of the model (R155; log entry 13). -/

namespace Sys2Proof.Machine

/-- The console data register of the routines (R22). -/
abbrev dataReg : Reg :=
  0

/-- The outcome `waiting` of R142: the architectural state is as before the step, the step is tried again, and only
the environment's time has passed. `t` is the state after the keyboard attempt; `pc` goes back to the TRAP. Log
entry 9 (DEDUCED). -/
def waitForKey (t : State) : Host.Outcome State Fault Refusal :=
  .next (t.setPc (t.pc - 1#16))

/-- What the two read routines do with the character `c` taken: link, then `x[0] <- zext_8(c)` and `setcc`
(R130, R132; zero-extended by D10, log entry 15, DEDUCED). -/
def deliverKey (c : Byte) (t : State) : State :=
  t.link.writeResult dataReg (zext8 c)

/-- GETC (R132): waits while no character has arrived. -/
def trapGetcRoutine (s : State) : Host.Outcome State Fault Refusal :=
  match s.kbdRead with
  | (some c, t) => .next (deliverKey c t)
  | (none, t) => waitForKey t

/-- IN (R135): GETC, then the low byte of R0 to the console; no prompt (D12, log entry 16, DEDUCED). -/
def trapInRoutine (s : State) : Host.Outcome State Fault Refusal :=
  match s.kbdRead with
  | (some c, t) => .next ((deliverKey c t).conOut [lowByte ((deliverKey c t).reg dataReg)])
  | (none, t) => waitForKey t

/-- OUT (R133): the low byte of R0 (which the link does not touch). -/
def trapOutRoutine (s : State) : Host.Outcome State Fault Refusal :=
  .next (s.link.conOut [lowByte (s.link.reg dataReg)])

/-- How far a walk has come after a number of reads. -/
inductive Walk where
  /-- A zero word was read. -/
  | ended (s : State)
  /-- No zero word was read. -/
  | going (s : State)
  /-- A word was read for which the parameters give the run no meaning. -/
  | noMeaning
deriving DecidableEq, Repr

/-- The loop of PUTS and PUTSP (R134, R136) for at most `n` reads: read the word at `a`; stop at a zero word, else write
its bytes and go on at `a + 1`. -/
def walkString (bytes : Word → Option (List Byte)) : Nat → Addr → State → Walk
  | 0, _, s => .going s
  | n + 1, a, s =>
    if (memRead s a).1 = 0x0000#16 then .ended (memRead s a).2
    else match bytes (memRead s a).1 with
      | some bs => walkString bytes n (a + 1#16) ((memRead s a).2.conOut bs)
      | none => .noMeaning

/-- The reads after which a walk that still goes on never ends (log entry 13, DESIGN CHOICE): whole rounds of the address
space, so that it is back at the address in R0. A round reads every cell and polls the keyboard once, and it is passed only
when that poll answers with a key: one without a character reads zero (R42), one with the zero character leaves a zero word in
KBDR. The first poll may come late in the first round; with `kbdRounds` keys after it, every poll brings one. -/
def walkBound (s : State) : Nat :=
  65536 * (s.kbdRounds + 2)

/-- PUTS writes the low byte of each word (R134; D14, log entry 16, DEDUCED). -/
def putsBytes (w : Word) : Option (List Byte) :=
  some [lowByte w]

/-- PUTSP writes the low byte, then the high byte if it is not zero (R136); a zero low byte under a non-zero high
byte is the parameter `PUTSP_ZERO_LOW`, none where it is `refuse` (log entry 12). -/
def putspBytes (zeroLow : PutspZeroLow) (w : Word) : Option (List Byte) :=
  let high := if highByte w ≠ 0x00#8 then [highByte w] else []
  if lowByte w ≠ 0x00#8 then some (lowByte w :: high)
  else match zeroLow with
    | .emitNul => some (0x00#8 :: high)
    | .skip => some high
    | .refuse => none

/-- What a word of the string writes. -/
def stringBytes (c : Config) : StringRoutine → Word → Option (List Byte)
  | .puts => putsBytes
  | .putsp => putspBytes c.putspZeroLow

/-- What the step of a string routine answers, by how far `walkBound` reads have come. A walk that ends does so in this one
step (R153), and so does one that comes to a word without a meaning (R136; log entry 12). One that still goes on never ends,
which is a hang and not a fault (R134, R155): the routine stays entered, and each coming step goes on with it. -/
def Walk.outcome (r : StringRoutine) : Walk → Host.Outcome State Fault Refusal
  | .ended t => .next (t.setRoutine none)
  | .going t => .next (t.setRoutine (some r))
  | .noMeaning => .refused .putspZeroLow

/-- A string routine from the address in R0 on; no register is written (R134, R136). -/
def runString (r : StringRoutine) (s : State) : Host.Outcome State Fault Refusal :=
  (walkString (stringBytes s.cfg r) (walkBound s) (s.reg dataReg) s).outcome r

/-- PUTS (R134). -/
def trapPutsRoutine (s : State) : Host.Outcome State Fault Refusal :=
  runString .puts s.link

/-- PUTSP (R136). -/
def trapPutspRoutine (s : State) : Host.Outcome State Fault Refusal :=
  runString .putsp s.link

/-- HALT (R137): the notice, then the running flag is cleared. -/
def trapHaltRoutine (s : State) : Host.Outcome State Fault Refusal :=
  .next { s.link.conOut s.cfg.haltNotice with run := false }

/-- TRAP (R130): every routine and the fatal error of an unknown vector (R138) write the link first. Where two
vectors of `cfg` are the same number, which R8 excludes, the first in the order of R130 is taken (log entry 21). -/
def execTrap (vect : Word) (s : State) : Host.Outcome State Fault Refusal :=
  if vect = zext8 s.cfg.trapGetc then trapGetcRoutine s
  else if vect = zext8 s.cfg.trapOut then trapOutRoutine s
  else if vect = zext8 s.cfg.trapPuts then trapPutsRoutine s
  else if vect = zext8 s.cfg.trapIn then trapInRoutine s
  else if vect = zext8 s.cfg.trapPutsp then trapPutspRoutine s
  else if vect = zext8 trapHalt then trapHaltRoutine s
  else raiseFatal (.unknownTrapVector vect) s.link

/-- RTI (R139). -/
def execRti (s : State) : Host.Outcome State Fault Refusal :=
  raiseFatal (.illegalOpcode .rti) s

/-- RES (R140). -/
def execRes (s : State) : Host.Outcome State Fault Refusal :=
  raiseFatal (.illegalOpcode .res) s

end Sys2Proof.Machine
end

