-- ==== Sys2Proof/Machine/Step.lean ====
section
/-! DEFINITION. One step of the run loop (49_step_cycle.md R150, R151). -/

namespace Sys2Proof.Machine

/-- While `run` is 1: fetch at `pc` and increment it, decode, execute (R151); or go on with the string routine
whose step never ends (R155; log entry 13, DESIGN CHOICE). With `run` 0 the loop has exited
and there is no step (R150; log entry 10, DEDUCED). -/
def step (s : State) : Host.Outcome State Fault Refusal :=
  if s.run then
    match s.routine with
    | none => exec (decode (fetch s).1) (fetch s).2
    | some r => runString r s
  else .refused .notRunning

/-- `s`, running and in no string routine, with the 16-bit instruction word `w` in the cell the next step fetches. A fetch
at `KBSR_ADDR` reads the poll's answer and not a stored word (R42), so from there the program counter moves to the next
address.
Log entry 22 (DESIGN CHOICE). -/
def State.withFetchWord (s : State) (nbits w : Nat) : State :=
  let at' : Addr := if s.pc = s.cfg.kbsrAddr then s.pc + 1#16 else s.pc
  { s with
    pc := at'
    run := true
    routine := none
    mem := s.mem.write at' (BitVec.ofNat 16 (w % 2 ^ nbits)) }

end Sys2Proof.Machine
end

