-- ==== Sys2Proof/Machine/Load.lean ====
section
/-! DEFINITION. Construction of the machine and the program loader (70_reset_and_hazards.md R180 to R186). -/

namespace Sys2Proof.Machine

/-- A program image: the origin and the payload words `w1 .. wn` (R182). -/
structure Image where
  origin : Addr
  payload : List Word
deriving DecidableEq, Repr

/-- The block does not pass the top of memory: `n <= 0x10000 - origin` (R184). -/
def Image.wf (img : Image) : Bool :=
  decide (img.payload.length ≤ 65536 - img.origin.toNat)

/-- The words of a file: of each pair of bytes the first is the high byte; none for an odd number of bytes
(R182, R184). -/
def wordsOfBytes : List Byte → Option (List Word)
  | [] => some []
  | [_] => none
  | hi :: lo :: rest => (wordsOfBytes rest).map ((hi ++ lo) :: ·)

/-- The image in a file: the first word is the origin. None for what R184 refuses (92_eei_decisions.md D19; log
entry 18, DESIGN CHOICE). -/
def Image.ofBytes (file : List Byte) : Option Image :=
  match wordsOfBytes file with
  | some (w0 :: ws) => if Image.wf ⟨w0, ws⟩ then some ⟨w0, ws⟩ else none
  | _ => none

/-- Successive cells from `a` on get the words of the list, as direct cell writes (R183). -/
def writeBlock : Memory → Addr → List Word → Memory
  | m, _, [] => m
  | m, a, w :: ws => writeBlock (m.write a w) (a + 1#16) ws

/-- `Load(image)` (R183, R185): the payload into memory, `pc` to the origin. -/
def State.load (s : State) (img : Image) : State :=
  { s with mem := writeBlock s.mem img.origin img.payload, pc := img.origin }

/-- The construction of R180 for any choice of the parameters `COND_RESET` and `MEM_INIT` (as the cells it gives)
and of the others, with whatever the environment has queued (R35). -/
def State.construct (cfg : Config) (cond : BitVec 3) (memInit : Memory) (queue : List Byte)
    (arrivals : List (List Byte)) (supply : KbdSupply) : State where
  regs := Vector.replicate 8 0x0000#16
  pc := 0x0000#16
  cond := cond
  run := true
  mem := memInit
  kbdQueue := queue
  kbdArrivals := arrivals
  kbdSupply := supply
  console := []
  routine := none
  cfg := cfg

/-- Load the image of a file; without a well-formed image there is no run (R184, R186). -/
def State.boot (s : State) (file : List Byte) : Option State :=
  (Image.ofBytes file).map s.load

end Sys2Proof.Machine
end

