-- ==== Sys2Proof/Safety.lean ====
section
/-! DEFINITION. The terms claims are stated in: what ends a run (49_step_cycle.md R155), the invariant of the
machine, runs, and what an instruction may change. -/

namespace Sys2Proof.Machine

/-- COND holds exactly one of the three values (R26). -/
def condOneHot (c : BitVec 3) : Bool :=
  c == 0b100#3 || c == 0b010#3 || c == 0b001#3

/-- What holds of every machine between the steps of the model: the memory is in its canonical form, COND is one-hot
(R26), the parameters are as R8 asks, and a string routine the machine is still in has its link written (R130). -/
def State.Inv (s : State) : Prop :=
  s.mem.wf = true ∧ condOneHot s.cond = true ∧ configWf s.cfg = true ∧
    (s.routine ≠ none → s.reg linkReg = s.pc)

/-- `t` is reached from `s` by steps that answer a next state. -/
inductive Reaches : State → State → Prop where
  | refl (s : State) : Reaches s s
  | tail {s t u : State} (run : Reaches s t) (last : step t = .next u) : Reaches s u

/-- `t` is reached from `s` by exactly `n` such steps. -/
inductive ReachesIn : Nat → State → State → Prop where
  | zero (s : State) : ReachesIn 0 s s
  | succ {n : Nat} {s t u : State} (run : ReachesIn n s t) (last : step t = .next u) : ReachesIn (n + 1) s u

/-- No run from `s` ends in a fault. -/
def NeverFaults (s : State) : Prop :=
  ∀ t, Reaches s t → ∀ r, step t ≠ .fault r

/-! ### Status (R9, R155) -/

/-- What `Status` reports: running, or one of the three ways a run ends (R155). -/
inductive RunStatus where
  | running
  | halted
  | faulted (reason : Fault)
  /-- Ended from outside (R168); no step of the machine gives it (log entry 17). -/
  | aborted
deriving DecidableEq, Repr

/-- The status after a step with this outcome, when no abort came. A machine that takes no step because `run` is 0
has halted; a step still in a string routine or waiting for a character reports running; a run without a meaning
(R136) reports nothing. -/
def statusAfter : Host.Outcome State Fault Refusal → Option RunStatus
  | .next t => some (if t.run then .running else .halted)
  | .fault r => some (.faulted r)
  | .refused .notRunning => some .halted
  | .refused _ => none

/-- The environment may see this status after the step: an abort can come at any point and is unordered against a
halt or a fault (R166, R168). -/
def MayReport (o : Host.Outcome State Fault Refusal) (st : RunStatus) : Prop :=
  st = .aborted ∨ statusAfter o = some st

/-- The fates of a run that is not aborted (R155), and that of a run the spec gives no meaning (R136). -/
inductive Fate where
  | halted
  | faulted (reason : Fault)
  /-- An endless loop, a string routine that finds no zero word, or a wait that is never lifted. -/
  | never
  /-- `PUTSP_ZERO_LOW` is `refuse` and the run came to such a word. -/
  | noMeaning
deriving DecidableEq, Repr

/-- The run from `s` has this fate. -/
def HasFate (s : State) : Fate → Prop
  | .halted => ∃ t, Reaches s t ∧ t.run = false
  | .faulted reason => ∃ t, Reaches s t ∧ step t = .fault reason
  | .never => ∀ n, ∃ t, ReachesIn n s t ∧ t.run = true
  | .noMeaning => ∃ t, Reaches s t ∧ step t = .refused .putspZeroLow

/-! ### The keyboard stream -/

/-- The characters that have arrived and are not taken once the `n` coming keyboard operations have let theirs arrive,
in the order they are delivered, were none taken (R46). -/
def State.kbdStream : State → Nat → List Byte
  | s, 0 => s.kbdQueue
  | s, n + 1 => s.kbdArrive.kbdStream n

/-! ### Frames -/

/-- The same state but for COND. -/
def State.withCond (s : State) (c : BitVec 3) : State :=
  { s with cond := c }

/-- The same state but for the running flag. -/
def State.withRun (s : State) (b : Bool) : State :=
  { s with run := b }

/-- Every general register but those listed is the same in both states. -/
def SameRegsExcept (changed : List Reg) (s t : State) : Prop :=
  ∀ r, r ∉ changed → t.reg r = s.reg r

/-- Every memory cell reads the same in both states. -/
def SameMemory (s t : State) : Prop :=
  ∀ a, t.mem.read a = s.mem.read a

/-- Every memory cell but that at `ea` reads the same in both states. -/
def SameMemoryExcept (ea : Addr) (s t : State) : Prop :=
  ∀ a, a ≠ ea → t.mem.read a = s.mem.read a

/-- Every memory cell but the two keyboard registers reads the same in both states. -/
def SameMemoryButKeyboard (s t : State) : Prop :=
  ∀ a, a ≠ s.cfg.kbsrAddr → a ≠ s.cfg.kbdrAddr → t.mem.read a = s.mem.read a

/-- Nothing was taken from the keyboard and no time passed there. -/
def SameKeyboard (s t : State) : Prop :=
  t.kbdQueue = s.kbdQueue ∧ t.kbdArrivals = s.kbdArrivals ∧ t.kbdSupply = s.kbdSupply

/-- What is still to arrive in `t` is what one keyboard operation in `s` leaves to arrive. -/
def ArrivalsAfterOne (s t : State) : Prop :=
  t.kbdArrivals = s.kbdArrive.kbdArrivals ∧ t.kbdSupply = s.kbdArrive.kbdSupply

/-- The running flag, the string routine the machine is in and the parameters are the same in both states. -/
def SameMode (s t : State) : Prop :=
  t.run = s.run ∧ t.routine = s.routine ∧ t.cfg = s.cfg

/-- `SameMode`, and the console stream is the same in both states. -/
def SameControl (s t : State) : Prop :=
  SameMode s t ∧ t.console = s.console

/-- What a result-producing instruction does to the core: the word is in its register and COND is set from it, every
other general register and `pc` stay (R27, R28, R100). -/
def ResultWritten (dr : Reg) (v : Word) (s t : State) : Prop :=
  t.reg dr = v ∧ t.cond = condOf v ∧ SameRegsExcept [dr] s t ∧ t.pc = s.pc

/-- No general register, COND or `pc` changes. -/
def SameCore (s t : State) : Prop :=
  SameRegsExcept [] s t ∧ t.cond = s.cond ∧ t.pc = s.pc

/-- The address an instruction stores to, computed as its meaning computes it; none for an instruction that stores
nothing (20_memory.md R41). -/
def storeTarget (s : State) : Instr → Option Addr
  | .br _ _ _ _ => none
  | .addr _ _ _ => none
  | .addi _ _ _ => none
  | .ld _ _ => none
  | .st _ off => some (eaPcRel s off)
  | .jsr _ => none
  | .jsrr _ => none
  | .andr _ _ _ => none
  | .andi _ _ _ => none
  | .ldr _ _ _ => none
  | .str _ baseR off => some (eaBase s baseR off)
  | .rti => none
  | .not _ _ => none
  | .ldi _ _ => none
  | .sti _ off => some (eaIndirect s off).1
  | .jmp _ => none
  | .res => none
  | .lea _ _ => none
  | .trap _ => none

/-- The register an instruction stores; none for an instruction that stores nothing (R41). -/
def storeSource : Instr → Option Reg
  | .br _ _ _ _ => none
  | .addr _ _ _ => none
  | .addi _ _ _ => none
  | .ld _ _ => none
  | .st sr _ => some sr
  | .jsr _ => none
  | .jsrr _ => none
  | .andr _ _ _ => none
  | .andi _ _ _ => none
  | .ldr _ _ _ => none
  | .str sr _ _ => some sr
  | .rti => none
  | .not _ _ => none
  | .ldi _ _ => none
  | .sti sr _ => some sr
  | .jmp _ => none
  | .res => none
  | .lea _ _ => none
  | .trap _ => none

/-- The vector is that of one of the six routines (R130). -/
abbrev isKnownVector (s : State) (vect : Word) : Prop :=
  vect = zext8 s.cfg.trapGetc ∨ vect = zext8 s.cfg.trapOut ∨ vect = zext8 s.cfg.trapPuts ∨
    vect = zext8 s.cfg.trapIn ∨ vect = zext8 s.cfg.trapPutsp ∨ vect = zext8 trapHalt

/-- The vector is that of a routine that reads the keyboard: GETC or IN. -/
abbrev isReadVector (s : State) (vect : Word) : Prop :=
  vect = zext8 s.cfg.trapGetc ∨ vect = zext8 s.cfg.trapIn

/-- No character is there for the coming keyboard operation (R142). -/
abbrev noKeyPending (s : State) : Prop :=
  s.kbdArrive.kbdQueue = []

/-- The instruction is a GETC or IN that has to wait (R142). -/
def Waits (s : State) (i : Instr) : Prop :=
  ∃ vect, i = .trap vect ∧ isReadVector s vect ∧ noKeyPending s

/-- The destination register of a result-producing instruction: those of R28's table but the two read traps. -/
def resultReg : Instr → Option Reg
  | .br _ _ _ _ => none
  | .addr dr _ _ => some dr
  | .addi dr _ _ => some dr
  | .ld dr _ => some dr
  | .st _ _ => none
  | .jsr _ => none
  | .jsrr _ => none
  | .andr dr _ _ => some dr
  | .andi dr _ _ => some dr
  | .ldr dr _ _ => some dr
  | .str _ _ _ => none
  | .rti => none
  | .not dr _ => some dr
  | .ldi dr _ => some dr
  | .sti _ _ => none
  | .jmp _ => none
  | .res => none
  | .lea dr _ => some dr
  | .trap _ => none

/-- The general registers an instruction may write: its destination register, the link register of JSR, JSRR and
TRAP, and R0 for the two read routines (R22, R141). -/
def destRegs (s : State) : Instr → List Reg
  | .br _ _ _ _ => []
  | .addr dr _ _ => [dr]
  | .addi dr _ _ => [dr]
  | .ld dr _ => [dr]
  | .st _ _ => []
  | .jsr _ => [linkReg]
  | .jsrr _ => [linkReg]
  | .andr dr _ _ => [dr]
  | .andi dr _ _ => [dr]
  | .ldr dr _ _ => [dr]
  | .str _ _ _ => []
  | .rti => []
  | .not dr _ => [dr]
  | .ldi dr _ => [dr]
  | .sti _ _ => []
  | .jmp _ => []
  | .res => []
  | .lea dr _ => [dr]
  | .trap vect =>
    if isReadVector s vect then [dataReg, linkReg] else [linkReg]

/-! ### The loop of the string routines -/

/-- The turns of the loop of R134 and R136 that write and go on, as the spec writes them, with no bound: from address
`a` and state `s` the walk comes to address `b` and state `t`. `bytes` gives what a word of the string writes. -/
inductive WalksTo (bytes : Word → Option (List Byte)) : Addr → State → Addr → State → Prop where
  | here (a : Addr) (s : State) : WalksTo bytes a s a s
  /-- The word read is not zero, its bytes are written, and the walk goes on at the next address. -/
  | more {a b : Addr} {s t : State} {bs : List Byte} (nonzero : (memRead s a).1 ≠ 0x0000#16)
      (written : bytes (memRead s a).1 = some bs)
      (rest : WalksTo bytes (a + 1#16) ((memRead s a).2.conOut bs) b t) : WalksTo bytes a s b t

/-- The loop ends in `t`: the walk comes to a zero word, which is read and not written. -/
def WalkEnds (bytes : Word → Option (List Byte)) (a : Addr) (s t : State) : Prop :=
  ∃ b u, WalksTo bytes a s b u ∧ (memRead u b).1 = 0x0000#16 ∧ t = (memRead u b).2

/-- The loop comes to a word for which the parameters give the run no meaning (R136). -/
def WalkHasNoMeaning (bytes : Word → Option (List Byte)) (a : Addr) (s : State) : Prop :=
  ∃ b u, WalksTo bytes a s b u ∧ (memRead u b).1 ≠ 0x0000#16 ∧ bytes (memRead u b).1 = none

/-- What a word writes in PUTS, as R134 gives it. -/
def putsWrites (w : Word) : Option (List Byte) :=
  some [w.extractLsb' 0 8]

/-- What a non-zero word writes in PUTSP, as R136 gives it for each value of `PUTSP_ZERO_LOW`. -/
def putspWrites (zeroLow : PutspZeroLow) (w : Word) : Option (List Byte) :=
  (if w.extractLsb' 0 8 ≠ 0x00#8 then some [w.extractLsb' 0 8]
    else match zeroLow with
      | .emitNul => some [0x00#8]
      | .skip => some []
      | .refuse => none).map
    (· ++ if w.extractLsb' 8 8 ≠ 0x00#8 then [w.extractLsb' 8 8] else [])

/-- The vector of the routine (R130). -/
def routineVector (c : Config) : StringRoutine → Word
  | .puts => zext8 c.trapPuts
  | .putsp => zext8 c.trapPutsp

/-- What a word of the string writes in either routine. -/
def routineWrites (c : Config) : StringRoutine → Word → Option (List Byte)
  | .puts => putsWrites
  | .putsp => putspWrites c.putspZeroLow

/-- The instruction reads `KBSR_ADDR` after its fetch, and so polls the keyboard (R42): a load or a pointer read there, or
a string that comes to it. -/
def readsStatus (s : State) : Instr → Prop
  | .br _ _ _ _ => False
  | .addr _ _ _ => False
  | .addi _ _ _ => False
  | .ld _ off => eaPcRel s off = s.cfg.kbsrAddr
  | .st _ _ => False
  | .jsr _ => False
  | .jsrr _ => False
  | .andr _ _ _ => False
  | .andi _ _ _ => False
  | .ldr _ baseR off => eaBase s baseR off = s.cfg.kbsrAddr
  | .str _ _ _ => False
  | .rti => False
  | .not _ _ => False
  | .ldi _ off => eaPcRel s off = s.cfg.kbsrAddr ∨ (eaIndirect s off).1 = s.cfg.kbsrAddr
  | .sti _ off => eaPcRel s off = s.cfg.kbsrAddr
  | .jmp _ => False
  | .res => False
  | .lea _ _ => False
  | .trap vect => ∃ r u, vect = routineVector s.cfg r ∧
      WalksTo (routineWrites s.cfg r) (s.reg dataReg) s.link s.cfg.kbsrAddr u

end Sys2Proof.Machine
end

