-- ==== Sys2Proof/Certificates/Slice0/Obligations.lean ====
section
/-! DEFINITION. The statements for the provers. Each docstring names the rules of spec/ it formalises. Where a
statement rests on a choice of the model's or an inference the spec marks as its own, the docstring names the log
entry or the decision. -/

open Sys2Proof Sys2Proof.Machine

/-! ### Encoding -/

/-- Decoding an encoded well-formed instruction gives it back, with every operand at every value its field admits
(R75: `decode(encode(i)) = i` for every instruction in range). The bit positions are the spec's decisions D2 to D5
(log entry 1). -/
def Obligations.DecodeInvertsEncode : Prop :=
  ∀ i : Instr, i.wellFormed = true → decode (encode i) = i

/-- Every word decodes to a well-formed instruction, and encoding that gives the word back outside the ignored bits,
which the encoder writes 0, or ones in NOT (R68, R75; D2 to D6, log entry 1). -/
def Obligations.EncodeRestoresAllButIgnoredBits : Prop :=
  ∀ w : Word,
    (decode w).wellFormed = true ∧
    encode (decode w) &&& ~~~ (decode w).ignoredBits = w &&& ~~~ (decode w).ignoredBits ∧
    ((∃ dr sr, decode w = .not dr sr) → encode (decode w) &&& (decode w).ignoredBits = 0x003F#16) ∧
    ((¬ ∃ dr sr, decode w = .not dr sr) → encode (decode w) &&& (decode w).ignoredBits = 0x0000#16)

/-- Words that differ in ignored bits only decode to the same instruction (R68, R72; D6, log entry 1). -/
def Obligations.IgnoredBitsHaveNoEffect : Prop :=
  ∀ w w' : Word,
    w &&& ~~~ (decode w).ignoredBits = w' &&& ~~~ (decode w).ignoredBits → decode w' = decode w

/-- Each of the 65536 words is of exactly one row of the opcode table, and it is the row of the instruction the
decoder gives (R61, R70, R71; the numbers are D2, log entry 1). -/
def Obligations.EveryWordIsOfExactlyOneTableRow : Prop :=
  ∀ w : Word, (opcodeTable.filter (·.matches w)).map (·.mnemonic) = [(decode w).mnemonic]

/-- A sanity statement: words of spec/95_test_vectors.md section 3, one for each of the eleven formats of R67 and each
family, decode to the instructions listed there (D2 to D6, log entry 1). -/
def Obligations.SpecWordsDecodeAsListed : Prop :=
  decode 0x0FFF#16 = .br true true true 0xFFFF#16 ∧ decode 0x1419#16 = .addr 2 0 1 ∧
  decode 0x127F#16 = .addi 1 1 0xFFFF#16 ∧ decode 0x923F#16 = .not 1 0 ∧ decode 0x4C00#16 = .jsr 0xFC00#16 ∧ decode 0x46BF#16 = .jsrr 2 ∧
  decode 0x62BF#16 = .ldr 1 2 0xFFFF#16 ∧ decode 0xB203#16 = .sti 1 0x0003#16 ∧ decode 0xCFFF#16 = .jmp 7 ∧
  decode 0xFF25#16 = .trap 0x0025#16 ∧ decode 0x8ABC#16 = .rti

/-- R13: `sext_w` for the four signed widths, as a number and bit by bit, and `zext_8`. -/
def Obligations.FieldExtensionValues : Prop :=
  (∀ (w : Nat) (f : BitVec w), w ∈ [5, 6, 9, 11] →
    (sext f).toNat = (if f.toNat < 2 ^ (w - 1) then f.toNat else f.toNat + 2 ^ 16 - 2 ^ w) ∧
    ∀ i, i < 16 → (sext f).getLsbD i = if i < w then f.getLsbD i else f.getLsbD (w - 1)) ∧
  (∀ f : Byte, (zext8 f).toNat = f.toNat)

/-! ### State, memory and keyboard primitives -/

/-- R27: `setcc(v)` sets COND to Z exactly for the zero word, to N exactly for a non-zero word with bit 15 set, else
to P, and changes nothing else. -/
def Obligations.SetccFollowsTheWord : Prop :=
  ∀ (s : State) (v : Word),
    ((s.setCc v).cond = 0b010#3 ↔ v = 0x0000#16) ∧
    ((s.setCc v).cond = 0b100#3 ↔ v.getLsbD 15 = true ∧ v ≠ 0x0000#16) ∧
    ((s.setCc v).cond = 0b001#3 ↔ v.getLsbD 15 = false ∧ v ≠ 0x0000#16) ∧
    SameRegsExcept [] s (s.setCc v) ∧ (s.setCc v).pc = s.pc ∧ SameMemory s (s.setCc v) ∧
    SameKeyboard s (s.setCc v) ∧ SameControl s (s.setCc v)

/-- R43: `MemWrite(a, v)` stores `v` at `a`, whatever address it is, and has no other effect: no poll, no console
output, no other cell. The next read of `KBSR_ADDR` gives the status it gives without the store, and with a character
there it leaves in KBDR what it leaves without the store. -/
def Obligations.MemWriteChangesOneCell : Prop :=
  ∀ (s : State) (a : Addr) (v : Word),
    (memWrite s a v).mem.read a = v ∧ SameMemoryExcept a s (memWrite s a v) ∧ SameCore s (memWrite s a v) ∧
    SameKeyboard s (memWrite s a v) ∧ SameControl s (memWrite s a v) ∧
    (configWf s.cfg = true →
      (memRead (memWrite s a v) s.cfg.kbsrAddr).1 = (memRead s s.cfg.kbsrAddr).1 ∧
      (¬ noKeyPending s →
        (memRead (memWrite s a v) s.cfg.kbsrAddr).2.mem.read s.cfg.kbdrAddr =
          (memRead s s.cfg.kbsrAddr).2.mem.read s.cfg.kbdrAddr))

/-- R42: `MemRead(a)` away from `KBSR_ADDR` returns the cell and changes nothing; at `KBSR_ADDR` it polls: with no
character it clears the status cell and leaves KBDR, with one it takes it, writes 0x8000 and the character, and
returns the new status. The exact words are the spec's decisions D8 to D10 (log entry 15); `kbdArrive` is the model's
form of the environment's free answer (log entry 7). -/
def Obligations.MemReadPollsOnlyAtKeyboardStatus : Prop :=
  (∀ (s : State) (a : Addr), a ≠ s.cfg.kbsrAddr → memRead s a = (s.mem.read a, s)) ∧
  (∀ (s t : State) (v : Word), configWf s.cfg = true → memRead s s.cfg.kbsrAddr = (v, t) →
    SameCore s t ∧ SameControl s t ∧ SameMemoryButKeyboard s t ∧ t.mem.read s.cfg.kbsrAddr = v ∧
    ArrivalsAfterOne s t ∧
    (noKeyPending s → v = 0x0000#16 ∧ t.mem.read s.cfg.kbdrAddr = s.mem.read s.cfg.kbdrAddr ∧ t.kbdQueue = []) ∧
    (∀ c rest, s.kbdArrive.kbdQueue = c :: rest →
      v = 0x8000#16 ∧ t.mem.read s.cfg.kbdrAddr = zext8 c ∧ t.kbdQueue = rest))

/-- R46: a poll or one attempt of a blocking read takes the first character of the stream when the queue holds one
and nothing when it does not, and changes nothing but the stream. That a poll takes the character is the spec's
decision D9 (log entry 15); that what arrives is laid down in the state is the model's form (log entry 7). -/
def Obligations.KeyboardOperationsTakeTheFirstCharacter : Prop :=
  ∀ (s : State) (op : State → Option Byte × State), op = State.kbdPoll ∨ op = State.kbdRead →
    SameCore s (op s).2 ∧ SameMemory s (op s).2 ∧ SameControl s (op s).2 ∧
    ((op s).1 = none ↔ noKeyPending s) ∧
    ((op s).1 = none → ∀ n, s.kbdStream (n + 1) = (op s).2.kbdStream n) ∧
    (∀ c, (op s).1 = some c → ∀ n, s.kbdStream (n + 1) = c :: (op s).2.kbdStream n)

/-! ### Operate instructions and LEA -/

/-- R100: each of the five operate instructions completes in every state; the destination register and COND get
the sum, the bitwise and or the complement of the old operand values; nothing else changes. -/
def Obligations.OperateInstructionsResultAndFrame : Prop :=
  ∀ (s : State) (dr sr1 sr2 : Reg) (imm : Word),
    (∃ t, exec (.addr dr sr1 sr2) s = .next t ∧ ResultWritten dr (s.reg sr1 + s.reg sr2) s t ∧
      SameMemory s t ∧ SameKeyboard s t ∧ SameControl s t) ∧
    (∃ t, exec (.addi dr sr1 imm) s = .next t ∧ ResultWritten dr (s.reg sr1 + imm) s t ∧
      SameMemory s t ∧ SameKeyboard s t ∧ SameControl s t) ∧
    (∃ t, exec (.andr dr sr1 sr2) s = .next t ∧ ResultWritten dr (s.reg sr1 &&& s.reg sr2) s t ∧
      SameMemory s t ∧ SameKeyboard s t ∧ SameControl s t) ∧
    (∃ t, exec (.andi dr sr1 imm) s = .next t ∧ ResultWritten dr (s.reg sr1 &&& imm) s t ∧
      SameMemory s t ∧ SameKeyboard s t ∧ SameControl s t) ∧
    (∃ t, exec (.not dr sr1) s = .next t ∧ ResultWritten dr (0xFFFF#16 - s.reg sr1) s t ∧
      SameMemory s t ∧ SameKeyboard s t ∧ SameControl s t)

/-- R123: LEA completes in every state; the destination register and COND get the incremented PC plus the offset;
there is no memory access, so no poll. -/
def Obligations.LeaWritesTheAddress : Prop :=
  ∀ (s : State) (dr : Reg) (off : Word),
    ∃ t, exec (.lea dr off) s = .next t ∧ ResultWritten dr (s.pc + off) s t ∧
      SameMemory s t ∧ SameKeyboard s t ∧ SameControl s t

/-! ### Control transfer -/

/-- R110: BR completes in every state, adds the offset to the incremented PC exactly when a requested condition is
the one COND holds, and changes nothing else; with COND one-hot that test is `(nzp & cond) != 0` (R66). -/
def Obligations.BranchTakenOnRequestedCondition : Prop :=
  ∀ (s : State) (n z p : Bool) (off : Word),
    (∃ t, exec (.br n z p off) s = .next t ∧
      (((n = true ∧ s.cond = 0b100#3) ∨ (z = true ∧ s.cond = 0b010#3) ∨ (p = true ∧ s.cond = 0b001#3)) →
        t.pc = s.pc + off) ∧
      (¬ ((n = true ∧ s.cond = 0b100#3) ∨ (z = true ∧ s.cond = 0b010#3) ∨ (p = true ∧ s.cond = 0b001#3)) →
        t.pc = s.pc) ∧
      (condOneHot s.cond = true →
        t.pc = if (flagBit n ++ flagBit z ++ flagBit p) &&& s.cond ≠ 0#3 then s.pc + off else s.pc) ∧
      SameRegsExcept [] s t ∧ t.cond = s.cond ∧ SameMemory s t ∧ SameKeyboard s t ∧ SameControl s t)

/-- R111: JMP completes in every state with `pc` the content of the base register, and changes nothing else. -/
def Obligations.JumpGoesToTheBaseRegister : Prop :=
  ∀ (s : State) (baseR : Reg),
    ∃ t, exec (.jmp baseR) s = .next t ∧ t.pc = s.reg baseR ∧ SameRegsExcept [] s t ∧ t.cond = s.cond ∧
      SameMemory s t ∧ SameKeyboard s t ∧ SameControl s t

/-- R112: JSR completes in every state; R7 gets the incremented PC and `pc` the incremented PC plus the offset;
nothing else changes, COND neither. -/
def Obligations.SubroutineCallLinksThenJumps : Prop :=
  ∀ (s : State) (off : Word),
    ∃ t, exec (.jsr off) s = .next t ∧ t.reg 7 = s.pc ∧ t.pc = s.pc + off ∧ SameRegsExcept [7] s t ∧
      t.cond = s.cond ∧ SameMemory s t ∧ SameKeyboard s t ∧ SameControl s t

/-- R113: JSRR completes in every state; R7 gets the incremented PC; `pc` is the old content of a base register
other than R7, and the incremented PC for R7, since the link is written first (D20, log entry 14). -/
def Obligations.RegisterCallLinksThenReadsTheBase : Prop :=
  ∀ (s : State) (baseR : Reg),
    ∃ t, exec (.jsrr baseR) s = .next t ∧ t.reg 7 = s.pc ∧ (baseR ≠ 7 → t.pc = s.reg baseR) ∧
      (baseR = 7 → t.pc = s.pc) ∧ SameRegsExcept [7] s t ∧ t.cond = s.cond ∧ SameMemory s t ∧
      SameKeyboard s t ∧ SameControl s t

/-! ### Loads and stores -/

/-- R120: LD completes in every state: one `MemRead` of the incremented PC plus the offset, the word to the
destination register and COND. Away from `KBSR_ADDR` the word is the cell's and memory and keyboard stay. -/
def Obligations.LoadPcRelative : Prop :=
  ∀ (s u : State) (dr : Reg) (off v : Word), memRead s (s.pc + off) = (v, u) →
    ∃ t, exec (.ld dr off) s = .next t ∧ ResultWritten dr v s t ∧ SameControl s t ∧ SameMemory u t ∧
      SameKeyboard u t ∧
      (s.pc + off ≠ s.cfg.kbsrAddr →
        v = s.mem.read (s.pc + off) ∧ SameMemory s t ∧ SameKeyboard s t)

/-- R121: LDI completes in every state: a `MemRead` of the pointer, then a `MemRead` of the address read, the second
word to the destination register and COND. -/
def Obligations.LoadIndirect : Prop :=
  ∀ (s s1 s2 : State) (dr : Reg) (off p v : Word), memRead s (s.pc + off) = (p, s1) → memRead s1 p = (v, s2) →
    ∃ t, exec (.ldi dr off) s = .next t ∧ ResultWritten dr v s t ∧ SameControl s t ∧ SameMemory s2 t ∧
      SameKeyboard s2 t ∧
      (s.pc + off ≠ s.cfg.kbsrAddr → p ≠ s.cfg.kbsrAddr →
        v = s.mem.read (s.mem.read (s.pc + off)) ∧ SameMemory s t ∧ SameKeyboard s t)

/-- R122: LDR completes in every state: one `MemRead` of the old base register plus the offset, also when the
destination is the base register. -/
def Obligations.LoadBaseOffset : Prop :=
  ∀ (s u : State) (dr baseR : Reg) (off v : Word), memRead s (s.reg baseR + off) = (v, u) →
    ∃ t, exec (.ldr dr baseR off) s = .next t ∧ ResultWritten dr v s t ∧ SameControl s t ∧ SameMemory u t ∧
      SameKeyboard u t ∧
      (s.reg baseR + off ≠ s.cfg.kbsrAddr →
        v = s.mem.read (s.reg baseR + off) ∧ SameMemory s t ∧ SameKeyboard s t)

/-- R124: ST completes in every state: the cell at the incremented PC plus the offset gets the source register, and
no other cell, no register and not COND changes; nothing polls. -/
def Obligations.StorePcRelative : Prop :=
  ∀ (s : State) (sr : Reg) (off : Word),
    ∃ t, exec (.st sr off) s = .next t ∧ t.mem.read (s.pc + off) = s.reg sr ∧
      SameMemoryExcept (s.pc + off) s t ∧ SameCore s t ∧ SameKeyboard s t ∧ SameControl s t

/-- R125: STI completes in every state: one `MemRead` of the pointer, then the cell at the address read gets the
source register. Other cells are as the pointer read left them; away from `KBSR_ADDR` that is as they were. -/
def Obligations.StoreIndirect : Prop :=
  ∀ (s s1 : State) (sr : Reg) (off p : Word), memRead s (s.pc + off) = (p, s1) →
    ∃ t, exec (.sti sr off) s = .next t ∧ t.mem.read p = s.reg sr ∧ SameMemoryExcept p s1 t ∧
      SameKeyboard s1 t ∧ SameCore s t ∧ SameControl s t ∧
      (s.pc + off ≠ s.cfg.kbsrAddr →
        p = s.mem.read (s.pc + off) ∧ SameMemoryExcept p s t ∧ SameKeyboard s t)

/-- R126: STR completes in every state: the cell at the base register plus the offset gets the source register, and
nothing else changes. -/
def Obligations.StoreBaseOffset : Prop :=
  ∀ (s : State) (sr baseR : Reg) (off : Word),
    ∃ t, exec (.str sr baseR off) s = .next t ∧ t.mem.read (s.reg baseR + off) = s.reg sr ∧
      SameMemoryExcept (s.reg baseR + off) s t ∧ SameCore s t ∧ SameKeyboard s t ∧ SameControl s t

/-- R128: away from `KBSR_ADDR`, LDI leaves DR and COND exactly as LD of the pointer followed by a load from the
address that first load returned. -/
def Obligations.LoadIndirectIsTwoChainedLoads : Prop :=
  ∀ (s : State) (dr : Reg) (off : Word),
    s.pc + off ≠ s.cfg.kbsrAddr → s.mem.read (s.pc + off) ≠ s.cfg.kbsrAddr →
    ∃ t u v, exec (.ldi dr off) s = .next t ∧ exec (.ld dr off) s = .next u ∧
      exec (.ldr dr dr 0x0000#16) u = .next v ∧ t.reg dr = v.reg dr ∧ t.cond = v.cond

/-- R129: a load whose data address is `KBSR_ADDR` gives the fresh status: 0x8000 and N when a character was taken,
0x0000 and Z when none, by each of LD, LDI and LDR. The exact words are D8 (log entry 15). -/
def Obligations.LoadOfTheStatusCell : Prop :=
  ∀ (s : State) (i : Instr) (dr : Reg), configWf s.cfg = true →
    ((∃ off, i = .ld dr off ∧ s.pc + off = s.cfg.kbsrAddr) ∨
      (∃ baseR off, i = .ldr dr baseR off ∧ s.reg baseR + off = s.cfg.kbsrAddr) ∨
      (∃ off, i = .ldi dr off ∧ s.pc + off ≠ s.cfg.kbsrAddr ∧ s.mem.read (s.pc + off) = s.cfg.kbsrAddr)) →
    ∃ t, exec i s = .next t ∧
      (noKeyPending s → t.reg dr = 0x0000#16 ∧ t.cond = 0b010#3) ∧
      (∀ c rest, s.kbdArrive.kbdQueue = c :: rest →
        t.reg dr = 0x8000#16 ∧ t.cond = 0b100#3 ∧ t.mem.read s.cfg.kbdrAddr = zext8 c ∧ t.kbdQueue = rest)

/-- R57: the fetch of the next instruction sees a store of the instruction before it, whichever of ST, STI and STR it
is and whatever address it stores to; where it stored elsewhere the fetch sees the old cell, but for a cell KBDR that an
STI's pointer read at `KBSR_ADDR` may have rewritten (R42). -/
def Obligations.StoreIsSeenByTheNextFetch : Prop :=
  ∀ (i : Instr) (s t : State) (sr : Reg) (ea : Addr), storeSource i = some sr → storeTarget s i = some ea →
    exec i s = .next t → t.pc ≠ t.cfg.kbsrAddr →
    t.pc = s.pc ∧
    (ea = s.pc → (fetch t).1 = s.reg sr) ∧
    (ea ≠ s.pc → (s.pc ≠ s.cfg.kbdrAddr ∨ ∀ off, i = .sti sr off → s.pc + off ≠ s.cfg.kbsrAddr) →
      (fetch t).1 = s.mem.read s.pc)

/-! ### TRAP, RTI, RES -/

/-- R132: GETC with a character there completes: R7 gets the incremented PC, R0 the character, COND Z for 0x00 and P
otherwise; the console and memory stay. The zero extension is D10 (log entry 15). -/
def Obligations.GetcDeliversTheCharacter : Prop :=
  ∀ (s : State) (c : Byte) (rest : List Byte), s.kbdArrive.kbdQueue = c :: rest →
    ∃ t, exec (.trap (zext8 s.cfg.trapGetc)) s = .next t ∧ t.reg 7 = s.pc ∧ t.reg 0 = zext8 c ∧
      t.cond = (if c = 0x00#8 then 0b010#3 else 0b001#3) ∧ SameRegsExcept [0, 7] s t ∧ t.pc = s.pc ∧
      SameMemory s t ∧ SameControl s t ∧ t.kbdQueue = rest ∧ ArrivalsAfterOne s t

/-- R135: IN with a character there is GETC followed by that character on the console; no prompt (D12, log entry
16). -/
def Obligations.InEchoesTheCharacter : Prop :=
  ∀ (s : State) (c : Byte) (rest : List Byte), configWf s.cfg = true → s.kbdArrive.kbdQueue = c :: rest →
    ∃ t, exec (.trap (zext8 s.cfg.trapIn)) s = .next t ∧ t.reg 7 = s.pc ∧ t.reg 0 = zext8 c ∧
      t.cond = (if c = 0x00#8 then 0b010#3 else 0b001#3) ∧ t.console = s.console ++ [c] ∧
      SameRegsExcept [0, 7] s t ∧ t.pc = s.pc ∧ SameMemory s t ∧ SameMode s t ∧
      t.kbdQueue = rest ∧ ArrivalsAfterOne s t

/-- R133: OUT writes the low byte of R0 to the console and, but for the link in R7, changes nothing else. The vector
is a parameter (D11, log entry 6). -/
def Obligations.OutWritesTheLowByte : Prop :=
  ∀ s : State, configWf s.cfg = true →
    ∃ t, exec (.trap (zext8 s.cfg.trapOut)) s = .next t ∧
      t.console = s.console ++ [(s.reg 0).extractLsb' 0 8] ∧ t.reg 7 = s.pc ∧ SameRegsExcept [7] s t ∧
      t.cond = s.cond ∧ t.pc = s.pc ∧ SameMemory s t ∧ SameKeyboard s t ∧ SameMode s t

/-- R134: PUTS runs the spec's loop from the address in R0, each word writing its low byte. A loop that ends does so in the
one step of its TRAP (R153), whatever the keyboard delivers, and the next state is the one it ends in. Only a loop that never
ends leaves the machine in the routine, having read every address and come back to the one in R0, with at least a byte
written for each. With no more characters to arrive than those known the loop ends. But for the link no register changes,
nor COND, `pc`, nor any cell outside the keyboard registers. The low byte is D14 (log entry 16), the reads are `MemRead` by
D15 (log entry 13); that a step which never ends is steps of the model that go on for ever is the model's form (log entry
13). -/
def Obligations.PutsRunsTheLoop : Prop :=
  ∀ s : State, configWf s.cfg = true →
    (∀ u, WalkEnds putsWrites (s.reg 0) s.link u →
      exec (.trap (zext8 s.cfg.trapPuts)) s = .next (u.setRoutine none)) ∧
    ((∀ u, ¬ WalkEnds putsWrites (s.reg 0) s.link u) →
      ∃ u, exec (.trap (zext8 s.cfg.trapPuts)) s = .next (u.setRoutine (some .puts)) ∧
        WalksTo putsWrites (s.reg 0) s.link (s.reg 0) u ∧ s.console.length + 65536 ≤ u.console.length) ∧
    (s.kbdSupply = .ended → ∃ u, WalkEnds putsWrites (s.reg 0) s.link u) ∧
    ∃ t, exec (.trap (zext8 s.cfg.trapPuts)) s = .next t ∧
      t.reg 7 = s.pc ∧ SameRegsExcept [7] s t ∧ t.cond = s.cond ∧ t.pc = s.pc ∧ t.run = s.run ∧ t.cfg = s.cfg ∧
      SameMemoryButKeyboard s t

/-- R136: PUTSP runs the spec's loop from the address in R0: of each word the low byte, then the high byte if it is not
zero, and for a zero low byte what the parameter `PUTSP_ZERO_LOW` says. A loop that ends does so in the one step of its TRAP
(R153), and the next state is the one it ends in; one that comes to a word with a zero low byte and a non-zero high byte,
with the parameter at `refuse`, ends the run without a meaning; only one that does neither, and so never ends, leaves the
machine in the routine, as PUTS's does. That the run without a meaning is the refusal `putspZeroLow` is the model's form (log
entry 12). The reads are `MemRead` by D15 (log entry 13); that a step which never ends is steps of the model that go on for
ever is the model's form (log entry 13). -/
def Obligations.PutspRunsTheLoop : Prop :=
  ∀ s : State, configWf s.cfg = true →
    (∀ u, WalkEnds (putspWrites s.cfg.putspZeroLow) (s.reg 0) s.link u →
      exec (.trap (zext8 s.cfg.trapPutsp)) s = .next (u.setRoutine none)) ∧
    (WalkHasNoMeaning (putspWrites s.cfg.putspZeroLow) (s.reg 0) s.link →
      exec (.trap (zext8 s.cfg.trapPutsp)) s = .refused .putspZeroLow ∧ s.cfg.putspZeroLow = .refuse) ∧
    ((∀ u, ¬ WalkEnds (putspWrites s.cfg.putspZeroLow) (s.reg 0) s.link u) →
      ¬ WalkHasNoMeaning (putspWrites s.cfg.putspZeroLow) (s.reg 0) s.link →
      ∃ u, exec (.trap (zext8 s.cfg.trapPutsp)) s = .next (u.setRoutine (some .putsp)) ∧
        WalksTo (putspWrites s.cfg.putspZeroLow) (s.reg 0) s.link (s.reg 0) u ∧
        s.console.length + 65536 ≤ u.console.length) ∧
    (s.kbdSupply = .ended → (∃ u, WalkEnds (putspWrites s.cfg.putspZeroLow) (s.reg 0) s.link u) ∨
      WalkHasNoMeaning (putspWrites s.cfg.putspZeroLow) (s.reg 0) s.link) ∧
    (¬ WalkHasNoMeaning (putspWrites s.cfg.putspZeroLow) (s.reg 0) s.link →
      ∃ t, exec (.trap (zext8 s.cfg.trapPutsp)) s = .next t ∧
        t.reg 7 = s.pc ∧ SameRegsExcept [7] s t ∧ t.cond = s.cond ∧ t.pc = s.pc ∧ t.run = s.run ∧ t.cfg = s.cfg ∧
        SameMemoryButKeyboard s t)

/-- R134 on a string that does not touch `KBSR_ADDR`: `n` non-zero words and a zero word from the address in R0 on,
wrapping at the top of memory, put their `n` low bytes on the console in order; memory and keyboard stay. The low
byte is D14 (log entry 16). -/
def Obligations.PutsWritesThePlainString : Prop :=
  ∀ (s : State) (n : Nat), configWf s.cfg = true →
    (∀ k, k ≤ n → s.reg 0 + BitVec.ofNat 16 k ≠ s.cfg.kbsrAddr) →
    (∀ k, k < n → s.mem.read (s.reg 0 + BitVec.ofNat 16 k) ≠ 0x0000#16) →
    s.mem.read (s.reg 0 + BitVec.ofNat 16 n) = 0x0000#16 →
    ∃ t, exec (.trap (zext8 s.cfg.trapPuts)) s = .next t ∧
      t.console = s.console ++
        (List.range n).map (fun k => (s.mem.read (s.reg 0 + BitVec.ofNat 16 k)).extractLsb' 0 8) ∧
      SameMemory s t ∧ SameKeyboard s t ∧ t.routine = none

/-- R136 on a string that does not touch `KBSR_ADDR` and whose words have a non-zero low byte: low byte first, a zero
high byte not written, and the walk goes on to the zero word (90_conflicts.md C3). -/
def Obligations.PutspWritesThePackedString : Prop :=
  ∀ (s : State) (n : Nat), configWf s.cfg = true →
    (∀ k, k ≤ n → s.reg 0 + BitVec.ofNat 16 k ≠ s.cfg.kbsrAddr) →
    (∀ k, k < n → (s.mem.read (s.reg 0 + BitVec.ofNat 16 k)).extractLsb' 0 8 ≠ 0x00#8) →
    s.mem.read (s.reg 0 + BitVec.ofNat 16 n) = 0x0000#16 →
    ∃ t, exec (.trap (zext8 s.cfg.trapPutsp)) s = .next t ∧
      t.console = s.console ++
        (List.range n).flatMap (fun k =>
          (s.mem.read (s.reg 0 + BitVec.ofNat 16 k)).extractLsb' 0 8 ::
            (if (s.mem.read (s.reg 0 + BitVec.ofNat 16 k)).extractLsb' 8 8 = 0x00#8 then []
              else [(s.mem.read (s.reg 0 + BitVec.ofNat 16 k)).extractLsb' 8 8])) ∧
      SameMemory s t ∧ SameKeyboard s t ∧ t.routine = none

/-- R137: HALT writes the halt notice and clears the running flag; R7 gets the incremented PC; everything else is as
before. -/
def Obligations.HaltWritesTheNoticeAndStops : Prop :=
  ∀ s : State, configWf s.cfg = true →
    ∃ t, exec (.trap 0x0025#16) s = .next t ∧ t.run = false ∧ t.console = s.console ++ s.cfg.haltNotice ∧
      t.reg 7 = s.pc ∧ SameRegsExcept [7] s t ∧ t.cond = s.cond ∧ t.pc = s.pc ∧ SameMemory s t ∧
      SameKeyboard s t ∧ t.routine = s.routine ∧ t.cfg = s.cfg

/-- R138: a TRAP whose vector is none of the six ends in the fatal error that names the vector, after R7 was
written; the machine is frozen with everything else as it was and the running flag not cleared. The frozen state
carried by the fault is the model's form (log entry 11). -/
def Obligations.UnknownTrapVectorIsFatal : Prop :=
  ∀ (s : State) (vect : Word), ¬ isKnownVector s vect →
    ∃ u, exec (.trap vect) s = .fault (.fatal (.unknownTrapVector vect) u) ∧ u.reg 7 = s.pc ∧
      SameRegsExcept [7] s u ∧ u.cond = s.cond ∧ u.pc = s.pc ∧ SameMemory s u ∧ SameKeyboard s u ∧
      SameControl s u

/-- R139 and R140: RTI and RES end in their fatal errors in every state, and the execute step changes nothing. -/
def Obligations.RtiAndResAreFatal : Prop :=
  ∀ s : State,
    exec .rti s = .fault (.fatal (.illegalOpcode .rti) s) ∧ exec .res s = .fault (.fatal (.illegalOpcode .res) s)

/-- R142 and R154: a step whose instruction is GETC or IN while no character is there leaves the architectural state
as before the step, so that the same step is tried again; only the environment's time passes. That the outcome
`waiting` is a next state is the model's form (log entry 9); with nothing more to arrive the step changes nothing. -/
def Obligations.ReadTrapWaitsForACharacter : Prop :=
  ∀ (s : State) (vect : Word), s.run = true → s.routine = none → configWf s.cfg = true →
    decode (memRead s s.pc).1 = .trap vect → isReadVector s vect → noKeyPending s →
    ∃ t, step s = .next t ∧ SameCore s t ∧ t.mem = s.mem ∧ SameControl s t ∧ t.kbdQueue = s.kbdQueue ∧
      ArrivalsAfterOne s t ∧ (s.kbdArrivals = [] → s.kbdSupply = .ended → t = s)

/-! ### The step and the whole machine -/

/-- R151: a step of a running machine, which is in no string routine that never ends (log entry 13), fetches the word at
`pc` through `MemRead`, increments `pc`, decodes and executes; away from `KBSR_ADDR` the fetch changes nothing but `pc`. -/
def Obligations.StepRunsTheDecodedInstruction : Prop :=
  ∀ (s u : State) (ir : Word) (i : Instr), s.run = true → s.routine = none →
    memRead s s.pc = (ir, u) → decode ir = i →
    step s = exec i (u.setPc (s.pc + 1#16)) ∧
    (s.pc ≠ s.cfg.kbsrAddr → ir = s.mem.read s.pc ∧ step s = exec i (s.setPc (s.pc + 1#16)))

/-- R150: with the running flag clear there is no step, and with it set the only step that is refused is one of PUTSP to
which the parameter `PUTSP_ZERO_LOW` at `refuse` gives no meaning (R136, log entry 12). That there being no step is the
refusal `notRunning` is the model's form (log entry 10). -/
def Obligations.OnlyAHaltedMachineTakesNoStep : Prop :=
  ∀ s : State, (s.run = false ↔ step s = .refused .notRunning) ∧
    (s.run = true → ∀ r, step s = .refused r → r = .putspZeroLow ∧ s.cfg.putspZeroLow = .refuse)

/-- R25's table: `pc` after every instruction that completes, given the incremented PC; every target wraps and none
is invalid. The row of JSRR R7 rests on D20 (log entry 14). A read trap that waits has not completed (R142). -/
def Obligations.PcAfterEveryInstruction : Prop :=
  ∀ (i : Instr) (s t : State), exec i s = .next t → ¬ Waits s i →
    (∀ n z p off, i = .br n z p off → t.pc = if branchTaken n z p s.cond then s.pc + off else s.pc) ∧
    (∀ baseR, i = .jmp baseR → t.pc = s.reg baseR) ∧
    (∀ off, i = .jsr off → t.pc = s.pc + off) ∧
    (∀ baseR, i = .jsrr baseR → t.pc = if baseR = 7 then s.pc else s.reg baseR) ∧
    ((∀ n z p off, i ≠ .br n z p off) → (∀ baseR, i ≠ .jmp baseR) → (∀ off, i ≠ .jsr off) →
      (∀ baseR, i ≠ .jsrr baseR) → t.pc = s.pc)

/-- R28: the instructions that produce a result set COND from the word in their destination register, a read trap
that gets its character from the word in R0, every other instruction leaves COND, one that faults too; and only BR
reads COND: for every other instruction a different COND before gives the same outcome but for COND. That a read trap
which waits for its character leaves COND is R142 (D23) in the model's form (log entry 9). -/
def Obligations.CondIsWrittenByResultsAndReadByBranches : Prop :=
  (∀ (i : Instr) (s t : State), configWf s.cfg = true → exec i s = .next t →
    (∀ dr, resultReg i = some dr → t.cond = condOf (t.reg dr)) ∧
    (∀ vect, i = .trap vect → isReadVector s vect → ¬ noKeyPending s → t.cond = condOf (t.reg 0)) ∧
    (resultReg i = none → (∀ vect, i = .trap vect → isReadVector s vect → noKeyPending s) → t.cond = s.cond)) ∧
  (∀ (i : Instr) (s u : State) (reason : FatalReason), exec i s = .fault (.fatal reason u) → u.cond = s.cond) ∧
  (∀ (i : Instr) (s : State) (c : BitVec 3), (∀ n z p off, i ≠ .br n z p off) →
    (∀ t, exec i s = .next t → ∃ c', exec i (s.withCond c) = .next (t.withCond c')) ∧
    (∀ reason u, exec i s = .fault (.fatal reason u) →
      exec i (s.withCond c) = .fault (.fatal reason (u.withCond c))) ∧
    (∀ r, exec i s = .refused r → exec i (s.withCond c) = .refused r))

/-- R29: the running flag is set at reset, cleared by the halt trap and by nothing else, never set again, and read by
no instruction: with the flag different before, an instruction has the same outcome but for the flag. -/
def Obligations.RunningFlagIsClearedByTheHaltTrapOnly : Prop :=
  State.reset.run = true ∧
  (∀ (i : Instr) (s t : State), exec i s = .next t → configWf s.cfg = true →
    t.run = if i = .trap 0x0025#16 then false else s.run) ∧
  (∀ s t : State, step s = .next t → s.run = true) ∧
  (∀ (i : Instr) (s t : State) (b : Bool), exec i s = .next t →
    ∃ b', exec i (s.withRun b) = .next (t.withRun b')) ∧
  (∀ (i : Instr) (s u : State) (reason : FatalReason) (b : Bool), exec i s = .fault (.fatal reason u) →
    u.run = s.run ∧ exec i (s.withRun b) = .fault (.fatal reason (u.withRun b))) ∧
  (∀ (i : Instr) (s : State) (r : Refusal) (b : Bool), exec i s = .refused r → exec i (s.withRun b) = .refused r)

/-- R160 and R163: a step of a running machine raises `IllegalOpcode(RTI)` exactly for RTI, `IllegalOpcode(RES)`
exactly for RES, `UnknownTrapVector(v)` exactly for a TRAP whose vector `v` is none of the six, and in every other
case answers a next state, but for a PUTSP to which the parameter `PUTSP_ZERO_LOW` at `refuse` gives no meaning (R136,
log entry 12): nothing else can be raised. A step in a string routine that never ends raises nothing (log entry 13). -/
def Obligations.EveryStepCompletesOrRaisesAListedCondition : Prop :=
  (∀ (s : State) (i : Instr), s.run = true → s.routine = none → decode (memRead s s.pc).1 = i →
    ((i = .rti ↔ ∃ u, step s = .fault (.fatal (.illegalOpcode .rti) u)) ∧
      (i = .res ↔ ∃ u, step s = .fault (.fatal (.illegalOpcode .res) u)) ∧
      (∀ vect, (i = .trap vect ∧ ¬ isKnownVector s vect) ↔
        ∃ u, step s = .fault (.fatal (.unknownTrapVector vect) u)) ∧
      (i ≠ .rti → i ≠ .res → (∀ vect, i = .trap vect → isKnownVector s vect) →
        (∃ t, step s = .next t) ∨
          (i = .trap (zext8 s.cfg.trapPutsp) ∧ s.cfg.putspZeroLow = .refuse ∧
            step s = .refused .putspZeroLow)))) ∧
  (∀ s : State, s.run = true → s.routine ≠ none → ∀ r, step s ≠ .fault r)

/-- R154 and R161: the state a fatal error leaves has the incremented `pc`, the running flag still set, R7 with the
incremented PC in the TRAP case, and everything else as it was, but for a fetch at `KBSR_ADDR`, which polls (D21, log
entry 11). -/
def Obligations.FatalErrorFreezesTheMachine : Prop :=
  ∀ (s u : State) (reason : FatalReason), step s = .fault (.fatal reason u) →
    s.routine = none ∧ u.routine = none ∧ u.pc = s.pc + 1#16 ∧ u.cond = s.cond ∧ u.run = true ∧ u.console = s.console ∧ u.cfg = s.cfg ∧
    SameMemoryButKeyboard s u ∧
    (∀ op, reason = .illegalOpcode op → SameRegsExcept [] s u) ∧
    (∀ vect, reason = .unknownTrapVector vect → u.reg 7 = s.pc + 1#16 ∧ SameRegsExcept [7] s u) ∧
    (s.pc ≠ s.cfg.kbsrAddr → SameMemory s u ∧ SameKeyboard s u)

/-- R155: what `Status` reports after a step of a running machine: halted exactly when the instruction was the halt
trap, a fault with its reason when the step ended in one, running in every other case, a string routine that never
ends and a read trap that waits included; a run to which `PUTSP_ZERO_LOW` gives no meaning (R136, log entry 12) reports
nothing; and aborted is always possible (R166, R168, log entry 17). -/
def Obligations.StatusReportsHowTheRunGoesOn : Prop :=
  ∀ s : State, s.run = true → configWf s.cfg = true →
    (statusAfter (step s) = some .halted ↔
      s.routine = none ∧ decode (memRead s s.pc).1 = .trap 0x0025#16) ∧
    (∀ r, statusAfter (step s) = some (.faulted r) ↔ step s = .fault r) ∧
    (statusAfter (step s) = some .running ∨ statusAfter (step s) = some .halted ∨
      (∃ r, statusAfter (step s) = some (.faulted r)) ∨
      (statusAfter (step s) = none ∧ step s = .refused .putspZeroLow)) ∧
    MayReport (step s) .aborted

/-- R155: the run of a running machine that is not aborted has exactly one fate: halted, a fault with its reason, or
never; or the spec gives it no meaning (R136), which happens with the parameter `PUTSP_ZERO_LOW` at `refuse` only (log
entry 12). -/
def Obligations.ARunHasExactlyOneFate : Prop :=
  ∀ s : State, s.run = true →
    (∃ f, HasFate s f ∧ ∀ g, HasFate s g → g = f) ∧
    (s.cfg.putspZeroLow ≠ .refuse → ¬ HasFate s .noMeaning)

/-- R134 and R136: a machine in a string routine fetches nothing and goes on with the loop at the address in R0. Where the
loop never ends, which is the only way to come to such a state (R153, R155), its next state is the one it has come to over
the whole address space; for the other states of this form, the one the loop ends in, or none because the run has no
meaning (R136, log entry 12). No register, COND, `pc`, nor any cell outside the keyboard registers changes. That the
routine stands in the state is the model's form of a step that never ends (log entry 13). -/
def Obligations.StringRoutineGoesOnInTheNextStep : Prop :=
  ∀ (s : State) (r : StringRoutine), s.run = true → s.routine = some r →
    ((∀ u, ¬ WalkEnds (routineWrites s.cfg r) (s.reg 0) s u) →
      ¬ WalkHasNoMeaning (routineWrites s.cfg r) (s.reg 0) s →
      ∃ u, step s = .next (u.setRoutine (some r)) ∧ WalksTo (routineWrites s.cfg r) (s.reg 0) s (s.reg 0) u ∧
        s.console.length + 65536 ≤ u.console.length) ∧
    (∀ u, WalkEnds (routineWrites s.cfg r) (s.reg 0) s u → step s = .next (u.setRoutine none)) ∧
    (WalkHasNoMeaning (routineWrites s.cfg r) (s.reg 0) s →
      step s = .refused .putspZeroLow ∧ r = .putsp ∧ s.cfg.putspZeroLow = .refuse) ∧
    (∀ t, step s = .next t → SameCore s t ∧ t.run = true ∧ t.cfg = s.cfg ∧ SameMemoryButKeyboard s t)

/-- R134 and R155: a string routine whose loop finds no zero word never ends the run: its fate is `never`, and no fault.
So from its TRAP as from any later point of it. -/
def Obligations.StringWithoutAnEndIsNoFault : Prop :=
  (∀ (s : State) (r : StringRoutine), s.run = true → s.routine = some r →
    (∀ t, ¬ WalkEnds (routineWrites s.cfg r) (s.reg 0) s t) →
    ¬ WalkHasNoMeaning (routineWrites s.cfg r) (s.reg 0) s → HasFate s .never) ∧
  (∀ (s : State) (r : StringRoutine), s.run = true → s.routine = none → configWf s.cfg = true →
    s.pc ≠ s.cfg.kbsrAddr → decode (s.mem.read s.pc) = .trap (routineVector s.cfg r) →
    (∀ t, ¬ WalkEnds (routineWrites s.cfg r) (s.reg 0) (s.setPc (s.pc + 1#16)).link t) →
    ¬ WalkHasNoMeaning (routineWrites s.cfg r) (s.reg 0) (s.setPc (s.pc + 1#16)).link → HasFate s .never)

/-- R134 and R45: with no zero word in memory and a non-zero character at each poll for ever, PUTS hangs. -/
def Obligations.PutsOverFullMemoryWithAKeyAtEachPollHangs : Prop :=
  ∀ (s : State) (c : Byte), s.run = true → s.routine = none → configWf s.cfg = true →
    s.pc ≠ s.cfg.kbsrAddr → decode (s.mem.read s.pc) = .trap (zext8 s.cfg.trapPuts) →
    c ≠ 0x00#8 → s.kbdQueue = [] → s.kbdArrivals = [] → s.kbdSupply = .repeating [[c]] →
    (∀ a, a ≠ s.cfg.kbsrAddr → s.mem.read a ≠ 0x0000#16) → HasFate s .never

/-- R131 and R36: no step takes back or reorders a byte written to the console, and only TRAP writes to it, in its own
step or in the later ones of a string routine that never ends (log entry 13). -/
def Obligations.ConsoleOnlyGrowsAndOnlyByTraps : Prop :=
  ∀ s t : State, step s = .next t →
    s.console <+: t.console ∧
    (s.routine = none → (∀ vect, decode (memRead s s.pc).1 ≠ .trap vect) → t.console = s.console)

/-- R46: over a step with `n` keyboard operations the stream loses characters at its front only, at most one to each
operation: each is delivered at most once, in the order of arrival, and none appears from nowhere (D9, log entry 15;
the stream is the model's form of the environment, log entry 7). -/
def Obligations.KeyboardCharactersAreTakenInOrder : Prop :=
  ∀ s t : State, step s = .next t →
    ∃ (n : Nat) (taken : List Byte), taken.length ≤ n ∧
      ∀ m, s.kbdStream (n + m) = taken ++ t.kbdStream m

/-- R21, R22 and R141: the general registers an instruction changes are its destination register, R7 for JSR, JSRR
and TRAP, and R0 for the two read traps. That a read trap which waits changes none is R142 (D23) in the model's form
(log entry 9). -/
def Obligations.RegistersChangeOnlyWhereListed : Prop :=
  ∀ (i : Instr) (s t : State), configWf s.cfg = true → exec i s = .next t →
    SameRegsExcept (destRegs s i) s t ∧ (Waits s i → SameRegsExcept [] s t)

/-- R41, R42 and R54: the only cells an instruction changes are the one it stores to and, when it reads `KBSR_ADDR`,
the two keyboard registers. One that reads `KBSR_ADDR` nowhere after its fetch leaves those as well. -/
def Obligations.MemoryChangesOnlyByStoresAndPolls : Prop :=
  ∀ (i : Instr) (s t : State), exec i s = .next t →
    ∀ a, storeTarget s i ≠ some a →
      (a ≠ s.cfg.kbsrAddr → a ≠ s.cfg.kbdrAddr → t.mem.read a = s.mem.read a) ∧
      (¬ readsStatus s i → t.mem.read a = s.mem.read a)

/-- Every step keeps the invariant: canonical memory, COND one-hot (R26), parameters as R8 asks, and R7 holding the
incremented PC while the machine is in a string routine (R130); and no step changes a parameter. -/
def Obligations.StepKeepsTheInvariant : Prop :=
  ∀ s t : State, step s = .next t → s.Inv → t.Inv ∧ t.cfg = s.cfg

/-- So the invariant holds along every run from a machine constructed as R180 says, with a one-hot COND_RESET, a
canonical initial memory, any keyboard and parameters as R8 asks, and loaded with any image. -/
def Obligations.LoadedMachineKeepsTheInvariant : Prop :=
  ∀ (cfg : Config) (cond : BitVec 3) (memInit : Memory) (queue : List Byte) (arrivals : List (List Byte))
    (supply : KbdSupply) (img : Image) (t : State), configWf cfg = true → condOneHot cond = true → memInit.wf = true →
    Reaches ((State.construct cfg cond memInit queue arrivals supply).load img) t → t.Inv

/-! ### Reset and load -/

/-- The state after reset meets the invariant. Its `cond`, memory and parameters are the model's choices (log entries
3, 4, 6). -/
def Obligations.ResetMeetsTheInvariant : Prop :=
  State.reset.Inv

/-- R29, R35 and R180: after reset every general register is zero, the machine runs and nothing was written to the
console. For the values the spec leaves open the model has chosen: `cond` Z (log entry 4), every cell 0x0000 (3), no
characters arrived or to arrive (8), `pc` 0x0000 with no image loaded (5); the machine is in no string routine (13).
Loading the image whose only word is the origin 0x0000 leaves this very state. -/
def Obligations.ResetState : Prop :=
  (∀ r, State.reset.reg r = 0x0000#16) ∧ State.reset.run = true ∧ State.reset.console = [] ∧
  State.reset.cond = 0b010#3 ∧ (∀ a, State.reset.mem.read a = 0x0000#16) ∧ State.reset.pc = 0x0000#16 ∧
  State.reset.kbdQueue = [] ∧ State.reset.kbdArrivals = [] ∧ State.reset.kbdSupply = .ended ∧
  State.reset.routine = none ∧
  State.reset.boot [0x00#8, 0x00#8] = some State.reset

/-- R183 and R185: `Load` of a well-formed image puts the payload into the cells from the origin on, leaves every
other cell, sets `pc` to the origin, and has no other effect; the first step then runs the first payload word (away
from `KBSR_ADDR`, where a fetch reads the poll's answer, R151). -/
def Obligations.LoadPlacesTheImage : Prop :=
  ∀ (s : State) (img : Image), img.wf = true →
    (s.load img).pc = img.origin ∧
    (∀ (k : Nat) (w : Word), img.payload[k]? = some w →
      (s.load img).mem.read (img.origin + BitVec.ofNat 16 k) = w) ∧
    (∀ a : Addr, (∀ k, k < img.payload.length → a ≠ img.origin + BitVec.ofNat 16 k) →
      (s.load img).mem.read a = s.mem.read a) ∧
    SameRegsExcept [] s (s.load img) ∧ (s.load img).cond = s.cond ∧ SameKeyboard s (s.load img) ∧
    SameControl s (s.load img) ∧
    (∀ w : Word, img.payload[0]? = some w → img.origin ≠ s.cfg.kbsrAddr → s.run = true → s.routine = none →
      step (s.load img) = exec (decode w) ((s.load img).setPc (img.origin + 1#16)))

/-- R182: a file is big-endian 16-bit words, the first the origin and the rest the payload: the bytes of any origin
and payload that fit are read back as that image, and loading the file puts the payload words into the cells from the
origin on. -/
def Obligations.ImageFileIsBigEndianWords : Prop :=
  (∀ (img : Image) (file : List Byte), img.wf = true →
    file = ((img.origin :: img.payload).flatMap fun w => [w.extractLsb' 8 8, w.extractLsb' 0 8]) →
    Image.ofBytes file = some img ∧
    ∀ s : State, ∃ t, s.boot file = some t ∧ t.pc = img.origin ∧
      ∀ (k : Nat) (w : Word), img.payload[k]? = some w → t.mem.read (img.origin + BitVec.ofNat 16 k) = w) ∧
  (∀ (b0 b1 : Byte), ∃ img, Image.ofBytes [b0, b1] = some img ∧ img.payload = [] ∧
    img.origin.toNat = b0.toNat * 256 + b1.toNat)

/-- R184: a file of odd length, an empty one, and one whose payload passes the top of memory are refused, and every
other file is an image. The refusal is the spec's decision D19 (log entry 18). -/
def Obligations.MalformedImagesAreRefused : Prop :=
  ∀ file : List Byte,
    (file.length % 2 = 1 → Image.ofBytes file = none) ∧ Image.ofBytes [] = none ∧
    (∀ (b0 b1 : Byte) (rest : List Byte), file = b0 :: b1 :: rest → file.length % 2 = 0 →
      ((Image.ofBytes file).isSome = true ↔
        rest.length / 2 ≤ 65536 - (b0.toNat * 256 + b1.toNat)))

/-! ### The string routines and the step -/

/-- R153: a machine is in a string routine after a step only if the loop from there on never ends and comes to no word
without a meaning: a walk that ends has ended in the one step of its TRAP, whatever the keyboard delivers. That the routine
stands in the state is the model's form of a step that never ends (log entry 13). -/
def Obligations.OnlyAnEndlessLoopOutlastsItsStep : Prop :=
  ∀ (s t : State) (r : StringRoutine), step s = .next t → t.routine = some r →
    (∀ u, ¬ WalkEnds (routineWrites t.cfg r) (t.reg 0) t u) ∧ ¬ WalkHasNoMeaning (routineWrites t.cfg r) (t.reg 0) t
end

