-- ==== Sys2Proof/Laws/Answers.lean ====
section
/-! SUPPORT. The answers of a keyboard, and that the first `KbdSupply.rounds` of them settle whether every one is a key. -/

namespace Sys2Proof.Machine

/-! ### Any batches -/

theorem firstBatches_cons (f : Nat → List Byte) (n : Nat) :
    firstBatches f (n + 1) = f 0 ++ firstBatches (fun i => f (i + 1)) n := by
  simp [firstBatches, List.range_succ_eq_map, List.flatMap_map]

theorem firstBatches_succ (f : Nat → List Byte) (n : Nat) : firstBatches f (n + 1) = firstBatches f n ++ f n := by
  simp [firstBatches, List.range_succ]

theorem firstBatches_add (f : Nat → List Byte) (m n : Nat) :
    firstBatches f (m + n) = firstBatches f m ++ firstBatches (fun i => f (m + i)) n := by
  induction n with
  | zero => simp [firstBatches]
  | succ n ih => rw [← Nat.add_assoc, firstBatches_succ, firstBatches_succ, ih, List.append_assoc]

theorem lt_length_of_isKey {l : List Byte} {k : Nat} (h : isKey l[k]? = true) : k < l.length := by
  by_contra hc
  rw [List.getElem?_eq_none (by omega)] at h
  cases h

/-- Keys for the first `n` operations are keys at the front of what has arrived: the `k`-th operation takes the `k`-th
character, which has arrived by then. -/
theorem answers_isKey_iff (n : Nat) (q : List Byte) (f : Nat → List Byte) :
    (∀ k, k < n → isKey (answerAt k q f) = true) ↔
      ∀ k, k < n → isKey (q ++ firstBatches f (k + 1))[k]? = true := by
  induction n generalizing q f with
  | zero => simp
  | succ n ih =>
    have h0 : answerAt 0 q f = (q ++ firstBatches f 1)[0]? := by
      simp [answerAt, firstBatches, List.head?_eq_getElem?]
    rcases hq : q ++ f 0 with _ | ⟨c, rest⟩
    · have : answerAt 0 q f = none := by simp [answerAt, hq]
      constructor <;> intro h <;> have := h 0 (by omega) <;> simp_all [isKey]
    · have front : ∀ k, (q ++ firstBatches f (k + 1 + 1))[k + 1]? =
          (rest ++ firstBatches (fun i => f (i + 1)) (k + 1))[k]? := by
        intro k
        rw [firstBatches_cons, ← List.append_assoc, hq]
        simp
      have taken : ∀ k, answerAt (k + 1) q f = answerAt k rest fun i => f (i + 1) := by
        intro k
        rw [answerAt, hq]
        rfl
      have ih := ih rest fun i => f (i + 1)
      constructor
      · intro h k hk
        cases k with
        | zero => rw [← h0]; exact h 0 hk
        | succ k => rw [front]; exact ih.1 (fun j hj => by rw [← taken]; exact h _ (by omega)) k (by omega)
      · intro h k hk
        cases k with
        | zero => rw [h0]; exact h 0 hk
        | succ k => rw [taken]; exact ih.2 (fun j hj => by rw [← front]; exact h _ (by omega)) k (by omega)

/-- Where nothing arrives, the operation after the last waiting character has no key. -/
theorem not_keys_of_nothing {f : Nat → List Byte} (hf : ∀ i, f i = []) (q : List Byte) :
    ¬ ∀ k, k < q.length + 1 → isKey (answerAt k q f) = true := by
  intro h
  have := lt_length_of_isKey ((answers_isKey_iff _ q f).1 h q.length (by omega))
  simp [firstBatches, hf] at this

theorem firstBatches_period {f : Nat → List Byte} {p : Nat} (hf : ∀ i, f (p + i) = f i) (n : Nat) :
    firstBatches f (p + n) = firstBatches f p ++ firstBatches f n := by
  rw [firstBatches_add]
  simp [hf]

theorem periodicRounds_decides {f : Nat → List Byte} {p : Nat} (hp : 0 < p) (hf : ∀ i, f (p + i) = f i) (q : List Byte)
    (h : ∀ k, k < periodicRounds f p q → isKey (answerAt k q f) = true) (k : Nat) : isKey (answerAt k q f) = true := by
  have h := (answers_isKey_iff _ q f).1 h
  set g := (firstBatches f p).length with hg
  have length_periods : ∀ m, (firstBatches f (p * m)).length = g * m := by
    intro m
    induction m with
    | zero => simp [firstBatches]
    | succ m ih =>
      rw [Nat.mul_succ, Nat.add_comm, firstBatches_period hf, List.length_append, ih, Nat.mul_succ, ← hg]
      omega
  -- a period brings a character to each of its operations
  have enough : p ≤ g := by
    by_contra hc
    have h1 := lt_length_of_isKey (h (p * (q.length + 1) - 1) (by unfold periodicRounds; omega))
    have hpos : 0 < p * (q.length + 1) := Nat.mul_pos hp (by omega)
    rw [Nat.sub_add_cancel hpos, List.length_append, length_periods] at h1
    have : (g + 1) * (q.length + 1) ≤ p * (q.length + 1) := Nat.mul_le_mul_right _ (by omega)
    rw [Nat.add_mul] at this
    omega
  have arrived : ∀ k, k < q.length + (firstBatches f (k + 1)).length := by
    intro k
    induction k using Nat.strong_induction_on with
    | _ k ih =>
      by_cases hk : k < p
      · have := Nat.le_mul_of_pos_right p (Nat.succ_pos q.length)
        simpa using lt_length_of_isKey (h k (by unfold periodicRounds; omega))
      · have := ih (k - p) (by omega)
        rw [show k + 1 = p + (k - p + 1) by omega, firstBatches_period hf, List.length_append]
        omega
  -- every character waiting, and every one of a period, is a key
  have waiting : ∀ c ∈ q ++ firstBatches f p, c ≠ 0x00#8 := by
    intro c hc
    obtain ⟨i, hi, e⟩ := List.mem_iff_getElem.1 hc
    have hik := h i (by unfold periodicRounds; rw [List.length_append] at hi; omega)
    have hlen := lt_length_of_isKey hik
    have : (q ++ firstBatches f (i + 1))[i]? = some c := by
      have e1 : (q ++ firstBatches f (i + 1 + p))[i]? = (q ++ firstBatches f (i + 1))[i]? := by
        rw [firstBatches_add, ← List.append_assoc, List.getElem?_append_left hlen]
      have e2 : (q ++ firstBatches f (i + 1 + p))[i]? = (q ++ firstBatches f p)[i]? := by
        rw [Nat.add_comm, firstBatches_add, ← List.append_assoc, List.getElem?_append_left hi]
      rw [← e1, e2, List.getElem?_eq_getElem hi, e]
    rw [this] at hik
    simpa [isKey] using hik
  have later : ∀ n, ∀ c ∈ firstBatches f n, c ≠ 0x00#8 := by
    intro n
    induction n using Nat.strong_induction_on with
    | _ n ih =>
      intro c hc
      by_cases hn : n < p
      · apply waiting
        rw [show p = n + (p - n) by omega, firstBatches_add]
        simp [hc]
      · rw [show n = p + (n - p) by omega, firstBatches_period hf] at hc
        rcases List.mem_append.1 hc with hc | hc
        · exact waiting c (by simp [hc])
        · exact ih (n - p) (by omega) c hc
  refine (answers_isKey_iff (k + 1) q f).2 (fun j _ => ?_) k (by omega)
  have hj : j < (q ++ firstBatches f (j + 1)).length := by simpa using arrived j
  rw [List.getElem?_eq_getElem hj]
  have : (q ++ firstBatches f (j + 1))[j] ≠ 0x00#8 := by
    rcases List.mem_append.1 (List.getElem_mem hj) with hc | hc
    · exact waiting _ (by simp [hc])
    · exact later _ _ hc
  simpa [isKey] using this

/-- Every stream of batches has a number of operations that settles it: no stream is shut out of `FreeKeyboard`. -/
theorem decides_exists (batches : Nat → List Byte) : ∃ rounds, Decides batches rounds := by
  classical
  refine ⟨fun n q => if h : ∃ k, isKey (answerAt k q fun i => batches (n + i)) = false then Nat.find h + 1 else 0,
    fun n q h => ?_⟩
  by_contra hc
  have hex : ∃ k, isKey (answerAt k q fun i => batches (n + i)) = false := by simpa using hc
  have := h (Nat.find hex) (by show _ < dite _ _ _; rw [dif_pos hex]; omega)
  rw [Nat.find_spec hex] at this
  cases this

/-! ### The supplies -/

theorem KbdSupply.batchAt_iterate (supply : KbdSupply) (n i : Nat) :
    supply.batchAt (n + i) = (KbdSupply.later^[n] supply).batchAt i := by
  induction n generalizing supply with
  | zero => simp
  | succ n ih => rw [Nat.add_right_comm]; exact ih supply.later

theorem KbdSupply.later_repeating (batches : List (List Byte)) (n : Nat) :
    KbdSupply.later^[n] (.repeating batches) = .repeating (batches.rotate n) := by
  induction n generalizing batches with
  | zero => simp
  | succ n ih =>
    cases batches with
    | nil => simpa [KbdSupply.later] using ih []
    | cons b bs => simpa [KbdSupply.later] using ih (bs ++ [b])

theorem KbdSupply.batchAt_ended (i : Nat) : KbdSupply.ended.batchAt i = [] := by
  induction i with
  | zero => rfl
  | succ i ih => exact ih

theorem KbdSupply.batchAt_free (n i : Nat) : (KbdSupply.free n).batchAt i = Config.freeKeyboard.batch (n + i) := by
  induction i generalizing n with
  | zero => rfl
  | succ i ih => rw [show n + (i + 1) = n + 1 + i by omega]; exact ih (n + 1)

theorem KbdSupply.batchAt_repeating (batches : List (List Byte)) (i : Nat) :
    (KbdSupply.repeating batches).batchAt (max 1 batches.length + i) = (KbdSupply.repeating batches).batchAt i := by
  rw [KbdSupply.batchAt_iterate, KbdSupply.later_repeating]
  cases batches with
  | nil => simp
  | cons b bs => rw [Nat.max_eq_right (by simp), List.rotate_length]

/-- So many keys in a row from a supply are followed by keys for ever. -/
theorem KbdSupply.rounds_decides (supply : KbdSupply) (q : List Byte)
    (h : ∀ k, k < supply.rounds q → isKey (answerAt k q supply.batchAt) = true) (k : Nat) :
    isKey (answerAt k q supply.batchAt) = true := by
  cases supply with
  | ended => exact absurd h (not_keys_of_nothing KbdSupply.batchAt_ended q)
  | repeating batches => exact periodicRounds_decides (by omega) (KbdSupply.batchAt_repeating batches) q h k
  | free n =>
    have stream : (KbdSupply.free n).batchAt = fun i => Config.freeKeyboard.batch (n + i) :=
      funext (KbdSupply.batchAt_free n)
    rw [stream] at h ⊢
    rw [KbdSupply.rounds] at h
    revert h
    cases Config.freeKeyboard with
    | silent => exact fun h => absurd h (not_keys_of_nothing (fun _ => rfl) q)
    | typing batches rounds decides => exact fun h => decides n q h k

end Sys2Proof.Machine
end

