-- ==== Sys2Proof/Laws/Decode.lean ====
section
/-! SUPPORT. Fields and sign extension: what proofs about the decoder and the encoder need. -/

namespace Sys2Proof

/-- A word that fits a signed field is the sign extension of its low bits (R13, R65). -/
theorem sext_setWidth_of_fitsSigned {n : Nat} (hn : 0 < n) (hn' : n ≤ 16) {v : Word}
    (h : fitsSigned n v = true) : sext (v.setWidth n) = v := by
  simp only [fitsSigned, Bool.and_eq_true, decide_eq_true_eq] at h
  apply BitVec.eq_of_toInt_eq
  rw [sext, BitVec.toInt_signExtend_of_le hn', BitVec.toInt_setWidth]
  have two : ((2 ^ n : Nat) : Int) = 2 * 2 ^ (n - 1) := by
    obtain ⟨m, rfl⟩ : ∃ m, n = m + 1 := ⟨n - 1, by omega⟩
    push_cast
    simp [pow_succ]
    ring
  have inRange : Int.bmod v.toInt (2 ^ n) = v.toInt := by
    apply Int.bmod_eq_of_le <;> rw [two] <;> omega
  have nat : (v.toNat : Int) = v.toInt ∨ (v.toNat : Int) = v.toInt + 65536 := by
    rw [BitVec.toInt_eq_toNat_cond]
    split <;> omega
  rcases nat with e | e
  · rw [e, inRange]
  · have split16 : (65536 : Int) = ((2 ^ n : Nat) : Int) * 2 ^ (16 - n) := by
      push_cast
      rw [← pow_add, show n + (16 - n) = 16 by omega]
      norm_num
    rw [e, split16, Int.add_mul_bmod_self_left, inRange]

/-- A register field is read from its three bits. -/
theorem regField_eq {w : Word} {lo : Nat} {r : Reg}
    (h : ∀ i, i < 3 → w.getLsbD (lo + i) = (regBits r).getLsbD i) : regField w lo = r := by
  have e : field w lo 3 = regBits r := by
    apply BitVec.eq_of_getLsbD_eq
    intro i hi
    simp only [field, BitVec.getLsbD_extractLsb', hi, h i hi, decide_true, Bool.true_and]
  simp [regField, e, regBits]

/-- A low field is read from its bits. -/
theorem field_zero_eq {w : Word} {n : Nat} {v : Word}
    (h : ∀ i, i < n → w.getLsbD i = v.getLsbD i) : field w 0 n = v.setWidth n := by
  apply BitVec.eq_of_getLsbD_eq
  intro i hi
  simp only [field, BitVec.getLsbD_extractLsb', hi, Nat.zero_add, h i hi, decide_true, Bool.true_and,
    BitVec.getLsbD_setWidth]

end Sys2Proof
end

