-- ==== Sys2Proof/Laws/Memory.lean ====
section
/-! SUPPORT. Memory: read after write, and the canonical form. The read laws hold of every list, canonical or not. -/

namespace Sys2Proof.Machine

namespace Memory

theorem lookup_erase (m : List Cell) (a b : Nat) :
    lookup (erase m a) b = if b = a then unlisted else lookup m b := by
  induction m with
  | nil => simp [erase, lookup]
  | cons c rest ih =>
    obtain ⟨k, v⟩ := c
    by_cases hk : k = a <;> by_cases hb : b = a <;> by_cases hkb : k = b <;>
      simp_all [erase, lookup]

theorem lookup_insert (m : List Cell) (a b : Nat) (v : Word)
    (hm : ∀ c ∈ m, c.1 ≠ a) :
    lookup (insert m a v) b = if b = a then v else lookup m b := by
  induction m with
  | nil => by_cases hb : a = b <;> simp [insert, lookup, hb, eq_comm]
  | cons c rest ih =>
    obtain ⟨k, w⟩ := c
    have hk : k ≠ a := hm (k, w) (by simp)
    have ih' := ih fun c hc => hm c (by simp [hc])
    unfold insert
    split
    · by_cases hb : b = a
      · subst hb; simp [lookup]
      · simp [lookup, hb, Ne.symm hb]
    · simp only [lookup, ih']
      by_cases hb : b = a
      · subst hb; simp [hk]
      · simp [hb]

theorem erase_keys (m : List Cell) (a : Nat) : ∀ c ∈ erase m a, c.1 ≠ a := by
  induction m with
  | nil => simp [erase]
  | cons c rest ih =>
    obtain ⟨k, v⟩ := c
    by_cases hk : k = a
    · simpa [erase, hk] using ih
    · simpa [erase, hk] using ih

theorem read_write (m : Memory) (a b : Addr) (v : Word) :
    (m.write a v).read b = if b = a then v else m.read b := by
  have inj : (b.toNat = a.toNat) ↔ b = a := BitVec.toNat_inj
  unfold write read
  split
  · next h => simp [lookup_erase, inj, h]
  · rw [lookup_insert _ _ _ _ (erase_keys m a.toNat)]
    simp only [lookup_erase, inj]
    split <;> rfl

@[simp] theorem read_write_self (m : Memory) (a : Addr) (v : Word) : (m.write a v).read a = v := by
  simp [read_write]

@[simp] theorem read_write_ne (m : Memory) (v : Word) {a b : Addr} (h : b ≠ a) :
    (m.write a v).read b = m.read b := by
  simp [read_write, h]

@[simp] theorem read_nil (a : Addr) : Memory.read [] a = unlisted := rfl

/-! ### The canonical form -/

theorem wfAbove_mono {lo lo' : Option Nat} {m : List Cell}
    (hlo : ∀ l', lo' = some l' → ∃ l, lo = some l ∧ l' ≤ l) (h : wfAbove lo m = true) :
    wfAbove lo' m = true := by
  cases m with
  | nil => rfl
  | cons c rest =>
    obtain ⟨k, v⟩ := c
    cases lo' with
    | none => simp_all [wfAbove]
    | some l' =>
      obtain ⟨l, rfl, hl⟩ := hlo l' rfl
      simp only [wfAbove, Bool.and_eq_true, decide_eq_true_eq] at h ⊢
      exact ⟨⟨⟨by omega, h.1.1.2⟩, h.1.2⟩, h.2⟩

theorem erase_wfAbove {lo : Option Nat} {m : List Cell} (a : Nat) (h : wfAbove lo m = true) :
    wfAbove lo (erase m a) = true := by
  induction m generalizing lo with
  | nil => simpa [erase] using h
  | cons c rest ih =>
    obtain ⟨k, v⟩ := c
    simp only [wfAbove, Bool.and_eq_true] at h
    by_cases hk : k = a
    · simp only [erase, hk, if_true]
      refine wfAbove_mono ?_ (ih h.2)
      rintro l' rfl
      have := h.1.1.1
      simp only [decide_eq_true_eq] at this
      exact ⟨k, rfl, by omega⟩
    · simp only [erase, hk, if_false, wfAbove, Bool.and_eq_true]
      exact ⟨h.1, ih h.2⟩

theorem insert_wfAbove {lo : Option Nat} {m : List Cell} {a : Nat} {v : Word}
    (hlo : ∀ l, lo = some l → l < a) (ha : a < 65536) (hv : v ≠ unlisted)
    (hm : ∀ c ∈ m, c.1 ≠ a) (h : wfAbove lo m = true) : wfAbove lo (insert m a v) = true := by
  induction m generalizing lo with
  | nil =>
    cases lo with
    | none => simp [insert, wfAbove, ha, hv]
    | some l => simp [insert, wfAbove, ha, hv, hlo l rfl]
  | cons c rest ih =>
    obtain ⟨k, w⟩ := c
    have hk : k ≠ a := hm (k, w) (by simp)
    simp only [wfAbove, Bool.and_eq_true, decide_eq_true_eq] at h
    unfold insert
    split
    · next hlt =>
      simp only [wfAbove, Bool.and_eq_true, decide_eq_true_eq]
      refine ⟨⟨⟨?_, ha⟩, hv⟩, ⟨⟨hlt, h.1.1.2⟩, h.1.2⟩, h.2⟩
      cases lo with
      | none => rfl
      | some l => simpa using hlo l rfl
    · next hlt =>
      simp only [wfAbove, Bool.and_eq_true, decide_eq_true_eq]
      refine ⟨h.1, ih ?_ (fun c hc => hm c (by simp [hc])) h.2⟩
      rintro l ⟨⟩
      omega

/-- Every memory operation keeps the canonical form: the only writing operation is `write`. -/
theorem write_wf {m : Memory} (a : Addr) (v : Word) (h : m.wf = true) : (m.write a v).wf = true := by
  unfold write
  split
  · exact erase_wfAbove _ h
  · next hv =>
    exact insert_wfAbove (by simp) a.isLt hv (erase_keys m a.toNat) (erase_wfAbove _ h)

theorem lookup_below {lo : Option Nat} {m : List Cell} (h : wfAbove lo m = true) {l b : Nat}
    (hl : lo = some l) (hb : b ≤ l) : lookup m b = unlisted := by
  induction m generalizing lo l with
  | nil => rfl
  | cons c rest ih =>
    obtain ⟨k, v⟩ := c
    subst hl
    simp only [wfAbove, Bool.and_eq_true, decide_eq_true_eq] at h
    have hk : k ≠ b := by omega
    simp only [lookup, hk, if_false]
    exact ih h.2 rfl (by omega)

theorem ext_above {lo : Option Nat} {m m' : List Cell} (h : wfAbove lo m = true)
    (h' : wfAbove lo m' = true) (e : ∀ b, b < 65536 → lookup m b = lookup m' b) : m = m' := by
  induction m generalizing lo m' with
  | nil =>
    cases m' with
    | nil => rfl
    | cons c rest =>
      obtain ⟨k, v⟩ := c
      simp only [wfAbove, Bool.and_eq_true, decide_eq_true_eq] at h'
      have := e k h'.1.1.2
      simp only [lookup, if_true] at this
      exact absurd this.symm h'.1.2
  | cons c rest ih =>
    obtain ⟨k, v⟩ := c
    simp only [wfAbove, Bool.and_eq_true, decide_eq_true_eq] at h
    cases m' with
    | nil =>
      have := e k h.1.1.2
      simp only [lookup, if_true] at this
      exact absurd this h.1.2
    | cons c' rest' =>
      obtain ⟨k', v'⟩ := c'
      simp only [wfAbove, Bool.and_eq_true, decide_eq_true_eq] at h'
      have hkk : k = k' := by
        rcases Nat.lt_trichotomy k k' with hlt | heq | hgt
        · have := e k h.1.1.2
          simp only [lookup, if_true, Nat.ne_of_gt hlt, if_false] at this
          rw [lookup_below h'.2 rfl (Nat.le_of_lt hlt)] at this
          exact absurd this h.1.2
        · exact heq
        · have := e k' h'.1.1.2
          simp only [lookup, if_true, Nat.ne_of_gt hgt, if_false] at this
          rw [lookup_below h.2 rfl (Nat.le_of_lt hgt)] at this
          exact absurd this.symm h'.1.2
      subst hkk
      have hv : v = v' := by simpa [lookup] using e k h.1.1.2
      subst hv
      have hr : rest = rest' := by
        refine ih h.2 h'.2 fun b hb => ?_
        have := e b hb
        simp only [lookup] at this
        by_cases hkb : k = b
        · rw [lookup_below h.2 rfl (Nat.le_of_eq hkb.symm), lookup_below h'.2 rfl (Nat.le_of_eq hkb.symm)]
        · simpa [hkb] using this
      rw [hr]

/-- In the canonical form, equal contents are equal memories. -/
theorem ext_of_wf {m m' : Memory} (h : m.wf = true) (h' : m'.wf = true)
    (e : ∀ a : Addr, m.read a = m'.read a) : m = m' := by
  refine ext_above h h' fun b hb => ?_
  have := e (BitVec.ofNat 16 b)
  simpa [read, Nat.mod_eq_of_lt hb] using this

end Memory

end Sys2Proof.Machine
end

