-- ==== Sys2Proof/Laws/State.lean ====
section
/-! SUPPORT. The state updates field by field. -/

namespace Sys2Proof.Machine

/-! `setReg` -/

@[simp] theorem State.setReg_pc (s : State) (r : Reg) (v : Word) : (s.setReg r v).pc = s.pc := rfl
@[simp] theorem State.setReg_cond (s : State) (r : Reg) (v : Word) : (s.setReg r v).cond = s.cond := rfl
@[simp] theorem State.setReg_run (s : State) (r : Reg) (v : Word) : (s.setReg r v).run = s.run := rfl
@[simp] theorem State.setReg_mem (s : State) (r : Reg) (v : Word) : (s.setReg r v).mem = s.mem := rfl
@[simp] theorem State.setReg_kbdQueue (s : State) (r : Reg) (v : Word) : (s.setReg r v).kbdQueue = s.kbdQueue := rfl
@[simp] theorem State.setReg_kbdArrivals (s : State) (r : Reg) (v : Word) :
    (s.setReg r v).kbdArrivals = s.kbdArrivals := rfl
@[simp] theorem State.setReg_kbdSupply (s : State) (r : Reg) (v : Word) :
    (s.setReg r v).kbdSupply = s.kbdSupply := rfl
@[simp] theorem State.setReg_console (s : State) (r : Reg) (v : Word) : (s.setReg r v).console = s.console := rfl
@[simp] theorem State.setReg_routine (s : State) (r : Reg) (v : Word) : (s.setReg r v).routine = s.routine := rfl
@[simp] theorem State.setReg_cfg (s : State) (r : Reg) (v : Word) : (s.setReg r v).cfg = s.cfg := rfl

/-! `setCc` -/

@[simp] theorem State.setCc_pc (s : State) (v : Word) : (s.setCc v).pc = s.pc := rfl
@[simp] theorem State.setCc_cond (s : State) (v : Word) : (s.setCc v).cond = condOf v := rfl
@[simp] theorem State.setCc_run (s : State) (v : Word) : (s.setCc v).run = s.run := rfl
@[simp] theorem State.setCc_mem (s : State) (v : Word) : (s.setCc v).mem = s.mem := rfl
@[simp] theorem State.setCc_kbdQueue (s : State) (v : Word) : (s.setCc v).kbdQueue = s.kbdQueue := rfl
@[simp] theorem State.setCc_kbdArrivals (s : State) (v : Word) : (s.setCc v).kbdArrivals = s.kbdArrivals := rfl
@[simp] theorem State.setCc_kbdSupply (s : State) (v : Word) : (s.setCc v).kbdSupply = s.kbdSupply := rfl
@[simp] theorem State.setCc_console (s : State) (v : Word) : (s.setCc v).console = s.console := rfl
@[simp] theorem State.setCc_routine (s : State) (v : Word) : (s.setCc v).routine = s.routine := rfl
@[simp] theorem State.setCc_cfg (s : State) (v : Word) : (s.setCc v).cfg = s.cfg := rfl

/-! `setPc` -/

@[simp] theorem State.setPc_pc (s : State) (v : Word) : (s.setPc v).pc = v := rfl
@[simp] theorem State.setPc_cond (s : State) (v : Word) : (s.setPc v).cond = s.cond := rfl
@[simp] theorem State.setPc_run (s : State) (v : Word) : (s.setPc v).run = s.run := rfl
@[simp] theorem State.setPc_mem (s : State) (v : Word) : (s.setPc v).mem = s.mem := rfl
@[simp] theorem State.setPc_kbdQueue (s : State) (v : Word) : (s.setPc v).kbdQueue = s.kbdQueue := rfl
@[simp] theorem State.setPc_kbdArrivals (s : State) (v : Word) : (s.setPc v).kbdArrivals = s.kbdArrivals := rfl
@[simp] theorem State.setPc_kbdSupply (s : State) (v : Word) : (s.setPc v).kbdSupply = s.kbdSupply := rfl
@[simp] theorem State.setPc_console (s : State) (v : Word) : (s.setPc v).console = s.console := rfl
@[simp] theorem State.setPc_routine (s : State) (v : Word) : (s.setPc v).routine = s.routine := rfl
@[simp] theorem State.setPc_cfg (s : State) (v : Word) : (s.setPc v).cfg = s.cfg := rfl

/-! `writeResult` -/

@[simp] theorem State.writeResult_pc (s : State) (r : Reg) (v : Word) : (s.writeResult r v).pc = s.pc := rfl
@[simp] theorem State.writeResult_cond (s : State) (r : Reg) (v : Word) : (s.writeResult r v).cond = condOf v := rfl
@[simp] theorem State.writeResult_run (s : State) (r : Reg) (v : Word) : (s.writeResult r v).run = s.run := rfl
@[simp] theorem State.writeResult_mem (s : State) (r : Reg) (v : Word) : (s.writeResult r v).mem = s.mem := rfl
@[simp] theorem State.writeResult_kbdQueue (s : State) (r : Reg) (v : Word) :
    (s.writeResult r v).kbdQueue = s.kbdQueue := rfl
@[simp] theorem State.writeResult_kbdArrivals (s : State) (r : Reg) (v : Word) :
    (s.writeResult r v).kbdArrivals = s.kbdArrivals := rfl
@[simp] theorem State.writeResult_kbdSupply (s : State) (r : Reg) (v : Word) :
    (s.writeResult r v).kbdSupply = s.kbdSupply := rfl
@[simp] theorem State.writeResult_console (s : State) (r : Reg) (v : Word) :
    (s.writeResult r v).console = s.console := rfl
@[simp] theorem State.writeResult_routine (s : State) (r : Reg) (v : Word) :
    (s.writeResult r v).routine = s.routine := rfl
@[simp] theorem State.writeResult_cfg (s : State) (r : Reg) (v : Word) : (s.writeResult r v).cfg = s.cfg := rfl

/-! `link` -/

@[simp] theorem State.link_pc (s : State) : s.link.pc = s.pc := rfl
@[simp] theorem State.link_cond (s : State) : s.link.cond = s.cond := rfl
@[simp] theorem State.link_run (s : State) : s.link.run = s.run := rfl
@[simp] theorem State.link_mem (s : State) : s.link.mem = s.mem := rfl
@[simp] theorem State.link_kbdQueue (s : State) : s.link.kbdQueue = s.kbdQueue := rfl
@[simp] theorem State.link_kbdArrivals (s : State) : s.link.kbdArrivals = s.kbdArrivals := rfl
@[simp] theorem State.link_kbdSupply (s : State) : s.link.kbdSupply = s.kbdSupply := rfl
@[simp] theorem State.link_console (s : State) : s.link.console = s.console := rfl
@[simp] theorem State.link_routine (s : State) : s.link.routine = s.routine := rfl
@[simp] theorem State.link_cfg (s : State) : s.link.cfg = s.cfg := rfl

/-! `conOut` -/

@[simp] theorem State.conOut_pc (s : State) (bs : List Byte) : (s.conOut bs).pc = s.pc := rfl
@[simp] theorem State.conOut_cond (s : State) (bs : List Byte) : (s.conOut bs).cond = s.cond := rfl
@[simp] theorem State.conOut_run (s : State) (bs : List Byte) : (s.conOut bs).run = s.run := rfl
@[simp] theorem State.conOut_mem (s : State) (bs : List Byte) : (s.conOut bs).mem = s.mem := rfl
@[simp] theorem State.conOut_kbdQueue (s : State) (bs : List Byte) : (s.conOut bs).kbdQueue = s.kbdQueue := rfl
@[simp] theorem State.conOut_kbdArrivals (s : State) (bs : List Byte) :
    (s.conOut bs).kbdArrivals = s.kbdArrivals := rfl
@[simp] theorem State.conOut_kbdSupply (s : State) (bs : List Byte) : (s.conOut bs).kbdSupply = s.kbdSupply := rfl
@[simp] theorem State.conOut_console (s : State) (bs : List Byte) : (s.conOut bs).console = s.console ++ bs := rfl
@[simp] theorem State.conOut_routine (s : State) (bs : List Byte) : (s.conOut bs).routine = s.routine := rfl
@[simp] theorem State.conOut_cfg (s : State) (bs : List Byte) : (s.conOut bs).cfg = s.cfg := rfl

/-! `storeCell` -/

@[simp] theorem State.storeCell_pc (s : State) (a : Addr) (v : Word) : (s.storeCell a v).pc = s.pc := rfl
@[simp] theorem State.storeCell_cond (s : State) (a : Addr) (v : Word) : (s.storeCell a v).cond = s.cond := rfl
@[simp] theorem State.storeCell_run (s : State) (a : Addr) (v : Word) : (s.storeCell a v).run = s.run := rfl
@[simp] theorem State.storeCell_mem (s : State) (a : Addr) (v : Word) : (s.storeCell a v).mem = s.mem.write a v := rfl
@[simp] theorem State.storeCell_kbdQueue (s : State) (a : Addr) (v : Word) :
    (s.storeCell a v).kbdQueue = s.kbdQueue := rfl
@[simp] theorem State.storeCell_kbdArrivals (s : State) (a : Addr) (v : Word) :
    (s.storeCell a v).kbdArrivals = s.kbdArrivals := rfl
@[simp] theorem State.storeCell_kbdSupply (s : State) (a : Addr) (v : Word) :
    (s.storeCell a v).kbdSupply = s.kbdSupply := rfl
@[simp] theorem State.storeCell_console (s : State) (a : Addr) (v : Word) :
    (s.storeCell a v).console = s.console := rfl
@[simp] theorem State.storeCell_routine (s : State) (a : Addr) (v : Word) :
    (s.storeCell a v).routine = s.routine := rfl
@[simp] theorem State.storeCell_cfg (s : State) (a : Addr) (v : Word) : (s.storeCell a v).cfg = s.cfg := rfl

/-! `kbdArrive` -/

@[simp] theorem State.kbdArrive_pc (s : State) : s.kbdArrive.pc = s.pc := rfl
@[simp] theorem State.kbdArrive_cond (s : State) : s.kbdArrive.cond = s.cond := rfl
@[simp] theorem State.kbdArrive_run (s : State) : s.kbdArrive.run = s.run := rfl
@[simp] theorem State.kbdArrive_mem (s : State) : s.kbdArrive.mem = s.mem := rfl
theorem State.kbdArrive_kbdQueue (s : State) : s.kbdArrive.kbdQueue = s.kbdQueue ++ s.kbdBatch := rfl
theorem State.kbdArrive_kbdArrivals (s : State) : s.kbdArrive.kbdArrivals = s.kbdArrivals.tail := rfl
theorem State.kbdArrive_kbdSupply (s : State) : s.kbdArrive.kbdSupply = s.kbdSupplyLater := rfl
@[simp] theorem State.kbdArrive_console (s : State) : s.kbdArrive.console = s.console := rfl
@[simp] theorem State.kbdArrive_routine (s : State) : s.kbdArrive.routine = s.routine := rfl
@[simp] theorem State.kbdArrive_cfg (s : State) : s.kbdArrive.cfg = s.cfg := rfl

/-! `setQueue` -/

@[simp] theorem State.setQueue_pc (s : State) (q : List Byte) : (s.setQueue q).pc = s.pc := rfl
@[simp] theorem State.setQueue_cond (s : State) (q : List Byte) : (s.setQueue q).cond = s.cond := rfl
@[simp] theorem State.setQueue_run (s : State) (q : List Byte) : (s.setQueue q).run = s.run := rfl
@[simp] theorem State.setQueue_mem (s : State) (q : List Byte) : (s.setQueue q).mem = s.mem := rfl
@[simp] theorem State.setQueue_kbdQueue (s : State) (q : List Byte) : (s.setQueue q).kbdQueue = q := rfl
@[simp] theorem State.setQueue_kbdArrivals (s : State) (q : List Byte) :
    (s.setQueue q).kbdArrivals = s.kbdArrivals := rfl
@[simp] theorem State.setQueue_kbdSupply (s : State) (q : List Byte) : (s.setQueue q).kbdSupply = s.kbdSupply := rfl
@[simp] theorem State.setQueue_console (s : State) (q : List Byte) : (s.setQueue q).console = s.console := rfl
@[simp] theorem State.setQueue_routine (s : State) (q : List Byte) : (s.setQueue q).routine = s.routine := rfl
@[simp] theorem State.setQueue_cfg (s : State) (q : List Byte) : (s.setQueue q).cfg = s.cfg := rfl

/-! `setRoutine` -/

@[simp] theorem State.setRoutine_pc (s : State) (r : Option StringRoutine) : (s.setRoutine r).pc = s.pc := rfl
@[simp] theorem State.setRoutine_cond (s : State) (r : Option StringRoutine) : (s.setRoutine r).cond = s.cond := rfl
@[simp] theorem State.setRoutine_run (s : State) (r : Option StringRoutine) : (s.setRoutine r).run = s.run := rfl
@[simp] theorem State.setRoutine_mem (s : State) (r : Option StringRoutine) : (s.setRoutine r).mem = s.mem := rfl
@[simp] theorem State.setRoutine_kbdQueue (s : State) (r : Option StringRoutine) :
    (s.setRoutine r).kbdQueue = s.kbdQueue := rfl
@[simp] theorem State.setRoutine_kbdArrivals (s : State) (r : Option StringRoutine) :
    (s.setRoutine r).kbdArrivals = s.kbdArrivals := rfl
@[simp] theorem State.setRoutine_kbdSupply (s : State) (r : Option StringRoutine) :
    (s.setRoutine r).kbdSupply = s.kbdSupply := rfl
@[simp] theorem State.setRoutine_console (s : State) (r : Option StringRoutine) :
    (s.setRoutine r).console = s.console := rfl
@[simp] theorem State.setRoutine_routine (s : State) (r : Option StringRoutine) : (s.setRoutine r).routine = r := rfl
@[simp] theorem State.setRoutine_cfg (s : State) (r : Option StringRoutine) : (s.setRoutine r).cfg = s.cfg := rfl

/-! Registers -/

@[simp] theorem State.setReg_reg_self (s : State) (r : Reg) (v : Word) : (s.setReg r v).reg r = v := by
  simp [State.setReg, State.reg]

@[simp] theorem State.setReg_reg_ne (s : State) (v : Word) {r q : Reg} (h : q ≠ r) :
    (s.setReg r v).reg q = s.reg q := by
  have : r.val ≠ q.val := fun e => h (Fin.ext e.symm)
  simp [State.setReg, State.reg, this]

theorem State.setReg_reg (s : State) (r q : Reg) (v : Word) :
    (s.setReg r v).reg q = if q = r then v else s.reg q := by
  split
  · next h => subst h; simp
  · next h => simp [h]

@[simp] theorem State.setCc_reg (s : State) (v : Word) (r : Reg) : (s.setCc v).reg r = s.reg r := rfl
@[simp] theorem State.setPc_reg (s : State) (v : Word) (r : Reg) : (s.setPc v).reg r = s.reg r := rfl
@[simp] theorem State.conOut_reg (s : State) (bs : List Byte) (r : Reg) : (s.conOut bs).reg r = s.reg r := rfl
@[simp] theorem State.storeCell_reg (s : State) (a : Addr) (v : Word) (r : Reg) :
    (s.storeCell a v).reg r = s.reg r := rfl
@[simp] theorem State.setQueue_reg (s : State) (q : List Byte) (r : Reg) :
    (s.setQueue q).reg r = s.reg r := rfl
@[simp] theorem State.setRoutine_reg (s : State) (o : Option StringRoutine) (r : Reg) :
    (s.setRoutine o).reg r = s.reg r := rfl
@[simp] theorem State.kbdArrive_reg (s : State) (r : Reg) : (s.kbdArrive).reg r = s.reg r := rfl

@[simp] theorem State.writeResult_reg_self (s : State) (r : Reg) (v : Word) :
    (s.writeResult r v).reg r = v := by
  simp [State.writeResult]

@[simp] theorem State.writeResult_reg_ne (s : State) (v : Word) {r q : Reg} (h : q ≠ r) :
    (s.writeResult r v).reg q = s.reg q := by
  simp [State.writeResult, h]

@[simp] theorem State.link_reg_self (s : State) : s.link.reg linkReg = s.pc := by
  simp [State.link]

@[simp] theorem State.link_reg_ne (s : State) {q : Reg} (h : q ≠ linkReg) : s.link.reg q = s.reg q := by
  simp [State.link, h]

@[simp] theorem State.conOut_nil (s : State) : s.conOut [] = s := by
  cases s
  simp [State.conOut]

@[simp] theorem State.conOut_conOut (s : State) (bs cs : List Byte) :
    (s.conOut bs).conOut cs = s.conOut (bs ++ cs) := by
  simp [State.conOut]

end Sys2Proof.Machine
end

