-- ==== Sys2Proof/Laws/Ops.lean ====
section
/-! SUPPORT. What the shared operations do: the keyboard poll, the reads, the fetch. -/

namespace Sys2Proof.Machine

@[simp] theorem memWrite_eq (s : State) (a : Addr) (v : Word) : memWrite s a v = s.storeCell a v := rfl

/-! ### The keyboard -/

/-- What one keyboard operation can do: take nothing from an empty queue, or its first character. -/
theorem kbdPoll_cases (s : State) :
    (s.kbdArrive.kbdQueue = [] ∧ s.kbdPoll = (none, s.kbdArrive)) ∨
    (∃ c rest, s.kbdArrive.kbdQueue = c :: rest ∧
      s.kbdPoll = (some c, s.kbdArrive.setQueue rest)) := by
  unfold State.kbdPoll State.kbdTake
  split
  · next h => exact .inl ⟨h, rfl⟩
  · next c rest h => exact .inr ⟨c, rest, h, rfl⟩

theorem kbdRead_eq_kbdPoll (s : State) : s.kbdRead = s.kbdPoll := rfl

/-- What the poll of a read of `KBSR_ADDR` can do (R42). -/
theorem pollKeyboard_cases (s : State) :
    (s.kbdArrive.kbdQueue = [] ∧ pollKeyboard s = s.kbdArrive.storeCell s.cfg.kbsrAddr 0x0000#16) ∨
    (∃ c rest, s.kbdArrive.kbdQueue = c :: rest ∧
      pollKeyboard s =
        ((s.kbdArrive.setQueue rest).storeCell s.cfg.kbsrAddr 0x8000#16).storeCell
          s.cfg.kbdrAddr (zext8 c)) := by
  unfold pollKeyboard
  rcases kbdPoll_cases s with ⟨h, e⟩ | ⟨c, rest, h, e⟩
  · exact .inl ⟨h, by rw [e]⟩
  · exact .inr ⟨c, rest, h, by rw [e]⟩

@[simp] theorem pollKeyboard_pc (s : State) : (pollKeyboard s).pc = s.pc := by
  rcases pollKeyboard_cases s with ⟨-, e⟩ | ⟨c, rest, -, e⟩ <;> simp [e]

@[simp] theorem pollKeyboard_cond (s : State) : (pollKeyboard s).cond = s.cond := by
  rcases pollKeyboard_cases s with ⟨-, e⟩ | ⟨c, rest, -, e⟩ <;> simp [e]

@[simp] theorem pollKeyboard_run (s : State) : (pollKeyboard s).run = s.run := by
  rcases pollKeyboard_cases s with ⟨-, e⟩ | ⟨c, rest, -, e⟩ <;> simp [e]

@[simp] theorem pollKeyboard_routine (s : State) : (pollKeyboard s).routine = s.routine := by
  rcases pollKeyboard_cases s with ⟨-, e⟩ | ⟨c, rest, -, e⟩ <;> simp [e]

@[simp] theorem pollKeyboard_console (s : State) : (pollKeyboard s).console = s.console := by
  rcases pollKeyboard_cases s with ⟨-, e⟩ | ⟨c, rest, -, e⟩ <;> simp [e]

@[simp] theorem pollKeyboard_cfg (s : State) : (pollKeyboard s).cfg = s.cfg := by
  rcases pollKeyboard_cases s with ⟨-, e⟩ | ⟨c, rest, -, e⟩ <;> simp [e]

@[simp] theorem pollKeyboard_reg (s : State) (r : Reg) : (pollKeyboard s).reg r = s.reg r := by
  rcases pollKeyboard_cases s with ⟨-, e⟩ | ⟨c, rest, -, e⟩ <;> rw [e] <;> rfl

theorem pollKeyboard_mem_read (s : State) {a : Addr} (h : a ≠ s.cfg.kbsrAddr) (h' : a ≠ s.cfg.kbdrAddr) :
    (pollKeyboard s).mem.read a = s.mem.read a := by
  rcases pollKeyboard_cases s with ⟨-, e⟩ | ⟨c, rest, -, e⟩ <;> simp [e, h, h']

theorem pollKeyboard_wf {s : State} (h : s.mem.wf = true) : (pollKeyboard s).mem.wf = true := by
  rcases pollKeyboard_cases s with ⟨-, e⟩ | ⟨c, rest, -, e⟩
  · rw [e]; simpa using Memory.write_wf _ _ h
  · rw [e]; simpa using Memory.write_wf _ _ (Memory.write_wf _ _ h)

/-! ### Reads -/

@[simp] theorem memRead_snd (s : State) (a : Addr) : (memRead s a).2 = afterRead s a := rfl

@[simp] theorem memRead_fst (s : State) (a : Addr) :
    (memRead s a).1 = (afterRead s a).mem.read a := rfl

theorem afterRead_plain {s : State} {a : Addr} (h : a ≠ s.cfg.kbsrAddr) : afterRead s a = s := by
  simp [afterRead, h]

theorem afterRead_status (s : State) : afterRead s s.cfg.kbsrAddr = pollKeyboard s := by
  simp [afterRead]

@[simp] theorem afterRead_pc (s : State) (a : Addr) : (afterRead s a).pc = s.pc := by
  unfold afterRead; split <;> simp

@[simp] theorem afterRead_cond (s : State) (a : Addr) : (afterRead s a).cond = s.cond := by
  unfold afterRead; split <;> simp

@[simp] theorem afterRead_run (s : State) (a : Addr) : (afterRead s a).run = s.run := by
  unfold afterRead; split <;> simp

@[simp] theorem afterRead_routine (s : State) (a : Addr) : (afterRead s a).routine = s.routine := by
  unfold afterRead; split <;> simp

@[simp] theorem afterRead_console (s : State) (a : Addr) : (afterRead s a).console = s.console := by
  unfold afterRead; split <;> simp

@[simp] theorem afterRead_cfg (s : State) (a : Addr) : (afterRead s a).cfg = s.cfg := by
  unfold afterRead; split <;> simp

@[simp] theorem afterRead_reg (s : State) (a : Addr) (r : Reg) : (afterRead s a).reg r = s.reg r := by
  unfold afterRead; split <;> simp

theorem afterRead_mem_read (s : State) (a : Addr) {b : Addr} (h : b ≠ s.cfg.kbsrAddr)
    (h' : b ≠ s.cfg.kbdrAddr) : (afterRead s a).mem.read b = s.mem.read b := by
  unfold afterRead; split
  · exact pollKeyboard_mem_read s h h'
  · rfl

theorem afterRead_wf {s : State} (a : Addr) (h : s.mem.wf = true) : (afterRead s a).mem.wf = true := by
  unfold afterRead; split
  · exact pollKeyboard_wf h
  · exact h

/-- The word at `KBSR_ADDR` is the poll's answer, 0x8000 or 0x0000 (R31, R42). -/
theorem memRead_status (s : State) (h : s.cfg.kbsrAddr ≠ s.cfg.kbdrAddr) :
    (memRead s s.cfg.kbsrAddr).1 = 0x0000#16 ∨ (memRead s s.cfg.kbsrAddr).1 = 0x8000#16 := by
  rw [memRead_fst, afterRead_status]
  rcases pollKeyboard_cases s with ⟨-, e⟩ | ⟨c, rest, -, e⟩
  · left; simp [e]
  · right; simp [e, h]

/-! ### The fetch -/

theorem fetch_fst (s : State) : (fetch s).1 = (memRead s s.pc).1 := rfl

@[simp] theorem fetch_snd (s : State) : (fetch s).2 = (afterRead s s.pc).setPc (s.pc + 1#16) := rfl

/-- Away from `KBSR_ADDR` the fetch reads the cell at `pc` and only increments `pc`. -/
theorem fetch_plain {s : State} (h : s.pc ≠ s.cfg.kbsrAddr) :
    fetch s = (s.mem.read s.pc, s.setPc (s.pc + 1#16)) := by
  simp [fetch, afterRead_plain h]

end Sys2Proof.Machine
end

