-- ==== Sys2Proof/Laws/Keyboard.lean ====
section
/-! SUPPORT. The keyboard stream: how one operation, and so any number of them, takes characters off its front;
and the answers of the operations to come. -/

namespace Sys2Proof.Machine

/-- The stream depends on the keyboard fields alone. -/
theorem kbdStream_congr {s t : State} (h : SameKeyboard s t) (n : Nat) : t.kbdStream n = s.kbdStream n := by
  induction n generalizing s t with
  | zero => exact h.1
  | succ n ih =>
    obtain ⟨h1, h2, h3⟩ := h
    apply ih
    simp [SameKeyboard, State.kbdArrive, State.kbdBatch, State.kbdSupplyLater, h1, h2, h3]

/-- A character at the front of the queue is at the front of the stream. -/
theorem kbdStream_setQueue {s : State} {c : Byte} {rest : List Byte} (h : s.kbdQueue = c :: rest) (n : Nat) :
    s.kbdStream n = c :: (s.setQueue rest).kbdStream n := by
  induction n generalizing s rest with
  | zero => exact h
  | succ n ih =>
    exact ih (s := s.kbdArrive) (rest := rest ++ s.kbdBatch) (by rw [State.kbdArrive_kbdQueue, h]; rfl)

/-- From `s` to `t` characters were taken off the front of the stream only, at most one to a keyboard operation. -/
def TakenInOrder (s t : State) : Prop :=
  ∃ (n : Nat) (taken : List Byte), taken.length ≤ n ∧ ∀ m, s.kbdStream (n + m) = taken ++ t.kbdStream m

theorem TakenInOrder.of_same {s t : State} (h : SameKeyboard s t) : TakenInOrder s t :=
  ⟨0, [], Nat.le_refl 0, fun m => by rw [Nat.zero_add, kbdStream_congr h]; rfl⟩

theorem TakenInOrder.trans {s t u : State} (h : TakenInOrder s t) (h' : TakenInOrder t u) : TakenInOrder s u := by
  obtain ⟨n, c, hn, e⟩ := h
  obtain ⟨n', c', hn', e'⟩ := h'
  refine ⟨n + n', c ++ c', by simp; omega, fun m => ?_⟩
  rw [Nat.add_assoc, e, e', List.append_assoc]

/-- One keyboard operation. -/
theorem TakenInOrder.kbdPoll (s : State) : TakenInOrder s s.kbdPoll.2 := by
  rcases kbdPoll_cases s with ⟨-, e⟩ | ⟨c, rest, h, e⟩
  · exact ⟨1, [], by simp, fun m => by rw [e, Nat.add_comm]; rfl⟩
  · exact ⟨1, [c], by simp, fun m => by rw [e, Nat.add_comm]; exact kbdStream_setQueue h m⟩

theorem TakenInOrder.afterRead (s : State) (a : Addr) : TakenInOrder s (afterRead s a) := by
  unfold Machine.afterRead
  split
  · apply (TakenInOrder.kbdPoll s).trans
    apply TakenInOrder.of_same
    unfold pollKeyboard
    rcases s.kbdPoll with ⟨_ | c, t⟩ <;> exact ⟨rfl, rfl, rfl⟩
  · exact .of_same ⟨rfl, rfl, rfl⟩

/-! ### The answers to come -/

/-- What the `k`-th of the coming keyboard operations answers. -/
def State.kbdAnswer : State → Nat → Option Byte
  | s, 0 => s.kbdPoll.1
  | s, k + 1 => s.kbdPoll.2.kbdAnswer k

/-- An operation looks at the keyboard fields alone. -/
theorem kbdPoll_congr {s t : State} (h : SameKeyboard s t) :
    t.kbdPoll.1 = s.kbdPoll.1 ∧ SameKeyboard s.kbdPoll.2 t.kbdPoll.2 := by
  obtain ⟨h1, h2, h3⟩ := h
  have queue : t.kbdArrive.kbdQueue = s.kbdArrive.kbdQueue := by
    simp [State.kbdArrive, State.kbdBatch, h1, h2, h3]
  rcases kbdPoll_cases s with ⟨hq, e⟩ | ⟨c, rest, hq, e⟩ <;>
    rcases kbdPoll_cases t with ⟨hq', e'⟩ | ⟨c', rest', hq', e'⟩ <;> rw [hq, hq'] at queue <;> cases queue <;>
    simp [SameKeyboard, e, e', hq, hq', State.kbdArrive_kbdArrivals, State.kbdArrive_kbdSupply, State.kbdSupplyLater,
      h2, h3]

/-- The answers depend on the keyboard fields alone. -/
theorem kbdAnswer_congr {s t : State} (h : SameKeyboard s t) (k : Nat) : t.kbdAnswer k = s.kbdAnswer k := by
  induction k generalizing s t with
  | zero => exact (kbdPoll_congr h).1
  | succ k ih => exact ih (kbdPoll_congr h).2

/-- With no batch written down the answers are those of the supply. -/
theorem kbdAnswer_supply {s : State} (h : s.kbdArrivals = []) (k : Nat) :
    s.kbdAnswer k = answerAt k s.kbdQueue s.kbdSupply.batchAt := by
  have queue : s.kbdArrive.kbdQueue = s.kbdQueue ++ s.kbdSupply.batchAt 0 := by
    simp [State.kbdArrive_kbdQueue, State.kbdBatch, h, KbdSupply.batchAt]
  induction k generalizing s with
  | zero =>
    unfold State.kbdAnswer answerAt
    rw [← queue]
    rcases kbdPoll_cases s with ⟨hq, e⟩ | ⟨c, rest, hq, e⟩ <;> simp [hq, e]
  | succ k ih =>
    have arrivals : s.kbdPoll.2.kbdArrivals = [] := by
      rcases kbdPoll_cases s with ⟨-, e⟩ | ⟨c, rest, -, e⟩ <;> simp [e, State.kbdArrive_kbdArrivals, h]
    have supply : s.kbdPoll.2.kbdSupply = s.kbdSupply.later := by
      rcases kbdPoll_cases s with ⟨-, e⟩ | ⟨c, rest, -, e⟩ <;>
        simp [e, State.kbdArrive_kbdSupply, State.kbdSupplyLater, h]
    have left : s.kbdPoll.2.kbdQueue = (s.kbdQueue ++ s.kbdSupply.batchAt 0).tail := by
      rw [← queue]
      rcases kbdPoll_cases s with ⟨hq, e⟩ | ⟨c, rest, hq, e⟩ <;> simp [hq, e]
    unfold State.kbdAnswer answerAt
    rw [ih arrivals (by simp [State.kbdArrive_kbdQueue, State.kbdBatch, arrivals, KbdSupply.batchAt]), left, supply]
    rfl

/-- With the input at its end there are not keys for ever. -/
theorem not_keys_of_ended {s : State} (h : s.kbdSupply = .ended) : ¬ ∀ k, isKey (s.kbdAnswer k) = true := by
  intro keys
  induction hb : s.kbdArrivals generalizing s with
  | nil =>
    refine not_keys_of_nothing KbdSupply.batchAt_ended s.kbdQueue fun k _ => ?_
    rw [← h, ← kbdAnswer_supply hb]
    exact keys k
  | cons b bs ih =>
    refine ih ?_ (fun k => keys (k + 1)) ?_ <;>
      rcases kbdPoll_cases s with ⟨-, e⟩ | ⟨c, rest, -, e⟩ <;>
      simp [e, State.kbdArrive_kbdArrivals, State.kbdArrive_kbdSupply, State.kbdSupplyLater, h, hb]

/-- So many keys in a row are followed by keys for ever. -/
theorem kbdRounds_decides (s : State) (h : ∀ k, k < s.kbdRounds → isKey (s.kbdAnswer k) = true) (k : Nat) :
    isKey (s.kbdAnswer k) = true := by
  induction hb : s.kbdArrivals generalizing s k with
  | nil =>
    have rounds : s.kbdRounds = s.kbdSupply.rounds s.kbdQueue := by simp [State.kbdRounds, State.kbdKnown, hb]
    rw [rounds] at h
    rw [kbdAnswer_supply hb]
    exact s.kbdSupply.rounds_decides s.kbdQueue (fun j hj => by rw [← kbdAnswer_supply hb]; exact h j hj) k
  | cons b bs ih =>
    have rounds : s.kbdRounds = bs.length + s.kbdSupply.rounds ((s.kbdQueue ++ b ++ bs.flatten).drop (bs.length + 1)) + 1 := by
      simp only [State.kbdRounds, State.kbdKnown, hb, List.length_cons, List.flatten_cons, List.append_assoc]
      omega
    have first := h 0 (by omega)
    rcases kbdPoll_cases s with ⟨-, e⟩ | ⟨c, rest, hq, e⟩
    · rw [State.kbdAnswer, e] at first
      cases first
    have hq : s.kbdQueue ++ b = c :: rest := by simpa [State.kbdArrive_kbdQueue, State.kbdBatch, hb] using hq
    have next : s.kbdPoll.2.kbdRounds + 1 = s.kbdRounds := by
      rw [rounds, e, hq]
      simp [State.kbdRounds, State.kbdKnown, State.kbdArrive_kbdArrivals, State.kbdArrive_kbdSupply,
        State.kbdSupplyLater, hb]
    cases k with
    | zero => exact first
    | succ k =>
      exact ih s.kbdPoll.2 (fun j hj => h (j + 1) (by omega)) k
        (by simp [e, State.kbdArrive_kbdArrivals, hb])

end Sys2Proof.Machine
end

