-- ==== Sys2Proof/Laws/Walk.lean ====
section
/-! SUPPORT. The string walk of PUTS and PUTSP: what a bounded walk comes to, and that one which still goes on after
`walkBound` reads never ends. -/

namespace Sys2Proof.Machine

/-! ### The walk -/

/-- What a walk leaves as it was, and how the console and the keyboard stream move. -/
structure WalkFrame (s t : State) : Prop where
  regs : ∀ r, t.reg r = s.reg r
  pc : t.pc = s.pc
  cond : t.cond = s.cond
  run : t.run = s.run
  routine : t.routine = s.routine
  cfg : t.cfg = s.cfg
  mem : SameMemoryButKeyboard s t
  wf : s.mem.wf = true → t.mem.wf = true
  console : s.console <+: t.console
  stream : TakenInOrder s t

theorem WalkFrame.refl (s : State) : WalkFrame s s :=
  ⟨fun _ => rfl, rfl, rfl, rfl, rfl, rfl, fun _ _ _ => rfl, id, List.prefix_refl _, .of_same ⟨rfl, rfl, rfl⟩⟩

theorem WalkFrame.trans {s t u : State} (h : WalkFrame s t) (h' : WalkFrame t u) : WalkFrame s u where
  regs r := (h'.regs r).trans (h.regs r)
  pc := h'.pc.trans h.pc
  cond := h'.cond.trans h.cond
  run := h'.run.trans h.run
  routine := h'.routine.trans h.routine
  cfg := h'.cfg.trans h.cfg
  mem a ha hb := (h'.mem a (h.cfg ▸ ha) (h.cfg ▸ hb)).trans (h.mem a ha hb)
  wf hw := h'.wf (h.wf hw)
  console := h.console.trans h'.console
  stream := h.stream.trans h'.stream

theorem WalkFrame.afterRead (s : State) (a : Addr) : WalkFrame s (afterRead s a) where
  regs r := by simp
  pc := by simp
  cond := by simp
  run := by simp
  routine := by simp
  cfg := by simp
  mem b hb hb' := afterRead_mem_read s a hb hb'
  wf := afterRead_wf a
  console := by simp
  stream := .afterRead s a

theorem WalkFrame.conOut (s : State) (bs : List Byte) : WalkFrame s (s.conOut bs) :=
  { WalkFrame.refl s with console := List.prefix_append _ _, stream := .of_same ⟨rfl, rfl, rfl⟩ }

theorem WalksTo.trans {bytes : Word → Option (List Byte)} {a b c : Addr} {s t u : State}
    (h : WalksTo bytes a s b t) (h' : WalksTo bytes b t c u) : WalksTo bytes a s c u := by
  induction h with
  | here => exact h'
  | more nonzero written _ ih => exact .more nonzero written (ih h')

/-- A walk that has come to a zero word, or to one without a meaning, has no other way to go: whatever point it passes,
it comes to that one. -/
theorem WalksTo.deterministic {bytes : Word → Option (List Byte)} {a b c : Addr} {s t u : State}
    (h : WalksTo bytes a s b t) (stop : (memRead t b).1 = 0x0000#16 ∨ bytes (memRead t b).1 = none)
    (h' : WalksTo bytes a s c u) : WalksTo bytes c u b t := by
  induction h' with
  | here => exact h
  | more nonzero written _ ih =>
    apply ih
    cases h with
    | here =>
      rcases stop with stop | stop
      · exact absurd stop nonzero
      · rw [written] at stop; cases stop
    | more _ written' rest =>
      rw [written] at written'
      cases written'
      exact rest

/-- A walk that never comes to `KBSR_ADDR` leaves the memory, and its next read does too. -/
theorem WalksTo.mem_of_away {bytes : Word → Option (List Byte)} {a b : Addr} {s t : State} (h : WalksTo bytes a s b t)
    (away : ∀ u, ¬ WalksTo bytes a s s.cfg.kbsrAddr u) : t.mem = s.mem ∧ afterRead t b = t := by
  induction h with
  | here a s =>
    have ha : a ≠ s.cfg.kbsrAddr := by
      rintro rfl
      exact away s (.here _ s)
    exact ⟨rfl, afterRead_plain ha⟩
  | @more a b s t bs nonzero written _ ih =>
    have ha : a ≠ s.cfg.kbsrAddr := by
      rintro rfl
      exact away s (.here _ s)
    have hr : (memRead s a).2 = s := afterRead_plain ha
    have ih := ih fun u w => away u (.more nonzero written (by simpa [hr] using w))
    rw [hr] at ih
    exact ih

/-- One turn of the walk, over the state after its read. -/
theorem walkString_succ (bytes : Word → Option (List Byte)) (n : Nat) (a : Addr) (s : State) :
    walkString bytes (n + 1) a s =
      if (afterRead s a).mem.read a = 0x0000#16 then .ended (afterRead s a)
      else match bytes ((afterRead s a).mem.read a) with
        | some bs => walkString bytes n (a + 1#16) ((afterRead s a).conOut bs)
        | none => .noMeaning := rfl

/-- The whole of what a bounded walk can come to, in terms of the spec's loop. -/
theorem walkString_cases (bytes : Word → Option (List Byte)) (n : Nat) (a : Addr) (s : State) :
    (∃ t, walkString bytes n a s = .ended t ∧ WalkFrame s t ∧ WalkEnds bytes a s t) ∨
    (∃ t, walkString bytes n a s = .going t ∧ WalkFrame s t ∧ WalksTo bytes a s (a + BitVec.ofNat 16 n) t) ∨
    (walkString bytes n a s = .noMeaning ∧ WalkHasNoMeaning bytes a s) := by
  induction n generalizing a s with
  | zero => exact .inr (.inl ⟨s, rfl, .refl s, by simpa using WalksTo.here a s⟩)
  | succ n ih =>
    unfold walkString
    split
    · next hz => exact .inl ⟨_, rfl, .afterRead s a, a, s, .here a s, hz, rfl⟩
    next hz =>
    split
    · next bs hb =>
      have hf : WalkFrame s ((memRead s a).2.conOut bs) := (WalkFrame.afterRead s a).trans (.conOut _ bs)
      rcases ih (a + 1#16) ((memRead s a).2.conOut bs) with
        ⟨t, e, f, b, u, w, z⟩ | ⟨t, e, f, w⟩ | ⟨e, b, u, w, z⟩
      · exact .inl ⟨t, e, hf.trans f, b, u, .more hz hb w, z⟩
      · refine .inr (.inl ⟨t, e, hf.trans f, ?_⟩)
        have : a + BitVec.ofNat 16 (n + 1) = a + 1#16 + BitVec.ofNat 16 n := by
          rw [BitVec.add_assoc, Nat.add_comm n 1, BitVec.ofNat_add]
        rw [this]
        exact .more hz hb w
      · exact .inr (.inr ⟨e, b, u, .more hz hb w, z⟩)
    · next hb => exact .inr (.inr ⟨rfl, a, s, .here a s, hz, hb⟩)

/-- A walk that goes on has written at least a byte to each read. -/
theorem walkString_console {bytes : Word → Option (List Byte)}
    (some_byte : ∀ w bs, w ≠ 0x0000#16 → bytes w = some bs → 1 ≤ bs.length) {n : Nat} {a : Addr} {s t : State}
    (h : walkString bytes n a s = .going t) : s.console.length + n ≤ t.console.length := by
  induction n generalizing a s with
  | zero => cases h; simp
  | succ n ih =>
    unfold walkString at h
    split at h
    · cases h
    next hz =>
    split at h
    · next bs hb =>
      have := ih h
      have := some_byte _ bs hz hb
      simp at *
      omega
    · cases h

/-- A longer walk is the shorter one and then the rest. -/
theorem walkString_add (bytes : Word → Option (List Byte)) (m n : Nat) (a : Addr) (s : State) :
    walkString bytes (m + n) a s =
      match walkString bytes m a s with
      | .going t => walkString bytes n (a + BitVec.ofNat 16 m) t
      | w => w := by
  induction m generalizing a s with
  | zero => simp [walkString]
  | succ m ih =>
    rw [Nat.add_right_comm, walkString_succ, walkString_succ]
    split
    · rfl
    · split
      · rw [ih, BitVec.add_assoc, ← BitVec.ofNat_add, Nat.add_comm 1 m]
      · rfl

/-- A walk that goes on after more reads goes on after fewer. -/
theorem walkString_going_add {bytes : Word → Option (List Byte)} {m n : Nat} {a : Addr} {s t : State}
    (h : walkString bytes (m + n) a s = .going t) :
    ∃ u, walkString bytes m a s = .going u ∧ walkString bytes n (a + BitVec.ofNat 16 m) u = .going t := by
  rw [walkString_add] at h
  split at h
  · next u e => exact ⟨u, e, h⟩
  · next h' => exact absurd h (h' t)

/-- The loop of the spec that ends is a bounded walk that ends, for some bound. -/
theorem walkString_of_walkEnds {bytes : Word → Option (List Byte)} {a : Addr} {s t : State} (h : WalkEnds bytes a s t) :
    ∃ n, walkString bytes n a s = .ended t := by
  obtain ⟨b, u, w, z, rfl⟩ := h
  induction w with
  | here a s => exact ⟨1, by rw [walkString_succ]; exact if_pos z⟩
  | more nonzero written _ ih =>
    obtain ⟨n, e⟩ := ih z
    refine ⟨n + 1, ?_⟩
    rw [memRead_fst] at nonzero written
    rw [walkString_succ, if_neg nonzero, written]
    exact e

/-- So is the loop that comes to a word without a meaning. -/
theorem walkString_of_noMeaning {bytes : Word → Option (List Byte)} {a : Addr} {s : State}
    (h : WalkHasNoMeaning bytes a s) : ∃ n, walkString bytes n a s = .noMeaning := by
  obtain ⟨b, u, w, z, hn⟩ := h
  induction w with
  | here a s =>
    refine ⟨1, ?_⟩
    simp only [memRead_fst] at z hn
    rw [walkString_succ, if_neg z, hn]
  | more nonzero written _ ih =>
    obtain ⟨n, e⟩ := ih z hn
    refine ⟨n + 1, ?_⟩
    rw [memRead_fst] at nonzero written
    rw [walkString_succ, if_neg nonzero, written]
    exact e

/-- What a walk has come to, ended or without a meaning, does not depend on the bound. -/
theorem walkString_unique {bytes : Word → Option (List Byte)} {m n : Nat} {a : Addr} {s : State} {w w' : Walk}
    (h : walkString bytes m a s = w) (h' : walkString bytes n a s = w') (hw : ∀ t, w ≠ .going t)
    (hw' : ∀ t, w' ≠ .going t) : w = w' := by
  have longer : ∀ {k v}, walkString bytes k a s = v → (∀ t, v ≠ .going t) → ∀ l, walkString bytes (k + l) a s = v := by
    intro k v e hv l
    rw [walkString_add, e]
    cases v with
    | going t => exact absurd rfl (hv t)
    | ended => rfl
    | noMeaning => rfl
  have e := longer h hw n
  rw [Nat.add_comm, longer h' hw' m] at e
  exact e.symm

/-! ### Rounds of the address space -/

/-- The walk goes on at this word. -/
def Passes (bytes : Word → Option (List Byte)) (w : Word) : Prop :=
  w ≠ 0x0000#16 ∧ bytes w ≠ none

/-- One read at a word that the walk passes. -/
theorem walkString_pass {bytes : Word → Option (List Byte)} {a : Addr} {s : State} (n : Nat)
    (h : Passes bytes ((afterRead s a).mem.read a)) :
    ∃ cs, walkString bytes (n + 1) a s = walkString bytes n (a + 1#16) ((afterRead s a).conOut cs) := by
  obtain ⟨cs, e⟩ := Option.ne_none_iff_exists'.1 h.2
  exact ⟨cs, by rw [walkString_succ, if_neg h.1, e]⟩

/-- A walk that goes on passes the first word it reads. -/
theorem passes_of_going {bytes : Word → Option (List Byte)} {n : Nat} {a : Addr} {s t : State}
    (h : walkString bytes (n + 1) a s = .going t) : Passes bytes ((afterRead s a).mem.read a) := by
  rw [walkString_succ] at h
  split at h
  · cases h
  next hz =>
  split at h
  · next e => exact ⟨hz, by rw [e]; simp⟩
  · cases h

/-- A walk that does not come to `KBSR_ADDR` goes on exactly where it passes every cell, and then only writes to the
console. -/
theorem walkString_away {bytes : Word → Option (List Byte)} (n : Nat) (a : Addr) (s : State)
    (hn : n ≤ (s.cfg.kbsrAddr - a).toNat) :
    ((∃ t, walkString bytes n a s = .going t) → ∀ k, k < n → Passes bytes (s.mem.read (a + BitVec.ofNat 16 k))) ∧
    ((∀ k, k < n → Passes bytes (s.mem.read (a + BitVec.ofNat 16 k))) →
      ∃ cs, walkString bytes n a s = .going (s.conOut cs)) := by
  induction n generalizing a s with
  | zero => exact ⟨fun _ k hk => by omega, fun _ => ⟨[], by rw [State.conOut_nil]; rfl⟩⟩
  | succ n ih =>
    have ha : a ≠ s.cfg.kbsrAddr := by
      rintro rfl
      simp at hn
    have hr : afterRead s a = s := afterRead_plain ha
    have next : ∀ k, a + 1#16 + BitVec.ofNat 16 k = a + BitVec.ofNat 16 (k + 1) := by
      intro k
      rw [BitVec.add_assoc, ← BitVec.ofNat_add, Nat.add_comm 1 k]
    have ih := fun cs => ih (a + 1#16) (s.conOut cs) (by rw [State.conOut_cfg]; bv_omega)
    simp only [State.conOut_mem, next, State.conOut_conOut] at ih
    constructor
    · rintro ⟨t, h⟩ k hk
      have first := passes_of_going h
      obtain ⟨cs, e⟩ := walkString_pass n first
      rw [hr] at first e
      cases k with
      | zero => simpa using first
      | succ k => exact (ih cs).1 ⟨t, by rw [← e]; exact h⟩ k (by omega)
    · intro h
      have first := h 0 (by omega)
      rw [BitVec.add_zero] at first
      obtain ⟨cs, e⟩ := walkString_pass n (by rw [hr]; exact first)
      obtain ⟨ds, e'⟩ := (ih cs).2 fun k hk => h (k + 1) (by omega)
      exact ⟨_, by rw [e, hr, e']⟩

/-- The walk passes every cell as the coming poll leaves it. -/
def RoundPasses (bytes : Word → Option (List Byte)) (s : State) : Prop :=
  ∀ b, Passes bytes ((pollKeyboard s).mem.read b)

/-- A round from `KBSR_ADDR` goes on exactly where the walk passes every cell, and then it polls once and otherwise only
writes to the console. -/
theorem walkString_round {bytes : Word → Option (List Byte)} (s : State) :
    ((∃ t, walkString bytes 65536 s.cfg.kbsrAddr s = .going t) → RoundPasses bytes s) ∧
    (RoundPasses bytes s →
      ∃ cs, walkString bytes 65536 s.cfg.kbsrAddr s = .going ((pollKeyboard s).conOut cs)) := by
  have away := fun cs => walkString_away (bytes := bytes) 65535 (s.cfg.kbsrAddr + 1#16) ((pollKeyboard s).conOut cs)
    (by rw [State.conOut_cfg, pollKeyboard_cfg]; bv_omega)
  simp only [State.conOut_mem, State.conOut_conOut] at away
  constructor
  · rintro ⟨t, h⟩ b
    have first := passes_of_going (n := 65535) h
    obtain ⟨cs, e⟩ := walkString_pass 65535 first
    rw [afterRead_status] at first e
    by_cases hb : b = s.cfg.kbsrAddr
    · subst hb; exact first
    · have := (away cs).1 ⟨t, by rw [← e]; exact h⟩ (b - (s.cfg.kbsrAddr + 1#16)).toNat (by bv_omega)
      rw [BitVec.ofNat_toNat, BitVec.setWidth_eq] at this
      rwa [show s.cfg.kbsrAddr + 1#16 + (b - (s.cfg.kbsrAddr + 1#16)) = b by bv_omega] at this
  · intro h
    have first := h s.cfg.kbsrAddr
    obtain ⟨cs, e⟩ := walkString_pass 65535 (by rw [afterRead_status]; exact first)
    obtain ⟨ds, e'⟩ := (away cs).2 fun k _ => h _
    rw [afterRead_status] at e
    exact ⟨_, e.trans e'⟩

theorem zext8_injective {a b : Byte} (h : zext8 a = zext8 b) : a = b := by
  apply BitVec.eq_of_toNat_eq
  have := congrArg BitVec.toNat h
  simp only [zext8, BitVec.toNat_setWidth] at this
  omega

/-- A round is passed with a key only. -/
theorem RoundPasses.isKey {bytes : Word → Option (List Byte)} {s : State} (h : RoundPasses bytes s) :
    isKey (s.kbdAnswer 0) = true := by
  rcases pollKeyboard_cases s with ⟨-, e⟩ | ⟨c, rest, hq, e⟩
  · exact absurd (by rw [e]; simp) (h s.cfg.kbsrAddr).1
  · have hk := (h s.cfg.kbdrAddr).1
    rcases kbdPoll_cases s with ⟨hq', -⟩ | ⟨c', rest', hq', p⟩
    · rw [hq] at hq'; cases hq'
    rw [hq] at hq'
    cases hq'
    have : c ≠ 0x00#8 := by
      rintro rfl
      rw [e] at hk
      exact hk (by simp; rfl)
    simpa [State.kbdAnswer, p, Sys2Proof.isKey] using this

theorem SameKeyboard.afterPoll (s : State) (cs : List Byte) : SameKeyboard s.kbdPoll.2 ((pollKeyboard s).conOut cs) := by
  unfold pollKeyboard
  rcases s.kbdPoll with ⟨_ | c, t⟩ <;> exact ⟨rfl, rfl, rfl⟩

/-- A walk that has passed a round passes the next, if the next poll brings a key. -/
theorem RoundPasses.next {bytes : Word → Option (List Byte)} (hk : ∀ c, c ≠ 0x00#8 → bytes (zext8 c) ≠ none) {s : State}
    (h : RoundPasses bytes s) (cs : List Byte) (hn : Sys2Proof.isKey (s.kbdAnswer 1) = true) :
    RoundPasses bytes ((pollKeyboard s).conOut cs) := by
  have answer : s.kbdAnswer 1 = ((pollKeyboard s).conOut cs).kbdPoll.1 :=
    (kbdAnswer_congr (SameKeyboard.afterPoll s cs) 0).symm
  rw [answer] at hn
  intro b
  rcases kbdPoll_cases ((pollKeyboard s).conOut cs) with ⟨-, p⟩ | ⟨c, rest, hq, p⟩
  · rw [p] at hn; cases hn
  have hc : c ≠ 0x00#8 := by simpa [p, Sys2Proof.isKey] using hn
  rcases pollKeyboard_cases ((pollKeyboard s).conOut cs) with ⟨hq', -⟩ | ⟨c', rest', hq', e⟩
  · rw [hq] at hq'; cases hq'
  rw [hq] at hq'
  cases hq'
  have old := h b
  rw [e]
  by_cases hd : b = s.cfg.kbdrAddr
  · subst hd
    have : zext8 c ≠ 0x0000#16 := fun hz => hc (zext8_injective (b := 0x00#8) hz)
    simpa [Passes, this] using hk c hc
  by_cases hs : b = s.cfg.kbsrAddr
  · subst hs
    have status := memRead_status s hd
    rw [memRead_fst, afterRead_status] at status
    rcases status with z | z
    · exact absurd z old.1
    · rw [z] at old
      simpa [hd] using old
  · simpa [hd, hs] using old

theorem add_ofNat_round (a : Addr) : a + BitVec.ofNat 16 65536 = a := by
  bv_omega

/-- Rounds that a walk passes have each had a key. -/
theorem keys_of_going {bytes : Word → Option (List Byte)} (m : Nat) {s t : State}
    (h : walkString bytes (65536 * m) s.cfg.kbsrAddr s = .going t) (k : Nat) (hk : k < m) :
    isKey (s.kbdAnswer k) = true := by
  induction m generalizing s k with
  | zero => omega
  | succ m ih =>
    rw [Nat.mul_succ, Nat.add_comm] at h
    obtain ⟨u, e, h⟩ := walkString_going_add h
    have round := (walkString_round s).1 ⟨u, e⟩
    obtain ⟨cs, e'⟩ := (walkString_round s).2 round
    rw [e] at e'
    cases e'
    cases k with
    | zero => exact round.isKey
    | succ k =>
      rw [add_ofNat_round] at h
      rw [State.kbdAnswer, ← kbdAnswer_congr (SameKeyboard.afterPoll s cs)]
      exact ih (by rw [State.conOut_cfg, pollKeyboard_cfg]; exact h) k (by omega)

/-- A walk that has passed a round goes on for ever with a key at each poll. -/
theorem RoundPasses.forever {bytes : Word → Option (List Byte)} (hk : ∀ c, c ≠ 0x00#8 → bytes (zext8 c) ≠ none) (m : Nat)
    {s : State} (h : RoundPasses bytes s) (keys : ∀ k, Sys2Proof.isKey (s.kbdAnswer k) = true) :
    ∃ t, walkString bytes (65536 * m) s.cfg.kbsrAddr s = .going t := by
  induction m generalizing s with
  | zero => exact ⟨s, rfl⟩
  | succ m ih =>
    obtain ⟨cs, e⟩ := (walkString_round s).2 h
    obtain ⟨t, e'⟩ := ih (h.next hk cs (keys 1)) fun k => by
      rw [kbdAnswer_congr (SameKeyboard.afterPoll s cs)]; exact keys (k + 1)
    refine ⟨t, ?_⟩
    rw [Nat.mul_succ, Nat.add_comm, walkString_add, e]
    simp only [State.conOut_cfg, pollKeyboard_cfg] at e'
    simp only [add_ofNat_round]
    exact e'

/-- A walk that still goes on after `walkBound` reads has come to `KBSR_ADDR` with the keyboard as it was, has passed a
round from there, and has a key at each poll for ever. -/
theorem keys_of_bound {bytes : Word → Option (List Byte)} {a : Addr} {s t : State}
    (h : walkString bytes (walkBound s) a s = .going t) :
    (∃ cs, walkString bytes (s.cfg.kbsrAddr - a).toNat a s = .going (s.conOut cs) ∧ RoundPasses bytes (s.conOut cs)) ∧
    ∀ k, isKey (s.kbdAnswer k) = true := by
  obtain ⟨d, hd⟩ : ∃ d, d = (s.cfg.kbsrAddr - a).toNat := ⟨_, rfl⟩
  have hlt : d < 65536 := by rw [hd]; exact (s.cfg.kbsrAddr - a).isLt
  have start : a + BitVec.ofNat 16 d = s.cfg.kbsrAddr := by
    rw [hd, BitVec.ofNat_toNat, BitVec.setWidth_eq]
    bv_omega
  rw [← hd]
  rw [show walkBound s = d + (65536 * (s.kbdRounds + 1) + (65536 - d)) by unfold walkBound; omega] at h
  obtain ⟨u, e, h⟩ := walkString_going_add h
  obtain ⟨cs, e'⟩ := (walkString_away d a s (by omega)).2 ((walkString_away d a s (by omega)).1 ⟨u, e⟩)
  rw [e] at e'
  cases e'
  obtain ⟨v, h, -⟩ := walkString_going_add h
  rw [start] at h
  refine ⟨⟨cs, e, ?_⟩, fun k => kbdRounds_decides s (fun k hk => ?_) k⟩
  · rw [Nat.mul_succ, Nat.add_comm] at h
    obtain ⟨w, round, -⟩ := walkString_going_add h
    exact (walkString_round (s.conOut cs)).1 ⟨w, round⟩
  · rw [← kbdAnswer_congr (s := s) (t := s.conOut cs) ⟨rfl, rfl, rfl⟩]
    exact keys_of_going _ h k (by omega)

/-- It goes on after any number of reads. -/
theorem walkString_forever {bytes : Word → Option (List Byte)} (hk : ∀ c, c ≠ 0x00#8 → bytes (zext8 c) ≠ none)
    {a : Addr} {s t : State} (h : walkString bytes (walkBound s) a s = .going t) (n : Nat) :
    ∃ u, walkString bytes n a s = .going u := by
  obtain ⟨⟨cs, e, round⟩, keys⟩ := keys_of_bound h
  obtain ⟨u, more⟩ := round.forever hk n fun k => by
    rw [kbdAnswer_congr (s := s) (t := s.conOut cs) ⟨rfl, rfl, rfl⟩]
    exact keys k
  have start : a + BitVec.ofNat 16 (s.cfg.kbsrAddr - a).toNat = s.cfg.kbsrAddr := by
    rw [BitVec.ofNat_toNat, BitVec.setWidth_eq]
    bv_omega
  have all : walkString bytes ((s.cfg.kbsrAddr - a).toNat + 65536 * n) a s = .going u := by
    rw [walkString_add, e]
    simp only [start]
    exact more
  rw [show (s.cfg.kbsrAddr - a).toNat + 65536 * n = n + ((s.cfg.kbsrAddr - a).toNat + 65535 * n) by omega] at all
  obtain ⟨v, e, -⟩ := walkString_going_add all
  exact ⟨v, e⟩

/-- So it has no end, and comes to no word without a meaning. -/
theorem walkString_going_never_ends {bytes : Word → Option (List Byte)} (hk : ∀ c, c ≠ 0x00#8 → bytes (zext8 c) ≠ none)
    {a : Addr} {s t : State} (h : walkString bytes (walkBound s) a s = .going t) :
    (∀ u, ¬ WalkEnds bytes a s u) ∧ ¬ WalkHasNoMeaning bytes a s := by
  refine ⟨fun u w => ?_, fun w => ?_⟩
  · obtain ⟨n, e⟩ := walkString_of_walkEnds w
    obtain ⟨v, e'⟩ := walkString_forever hk h n
    rw [e] at e'
    cases e'
  · obtain ⟨n, e⟩ := walkString_of_noMeaning w
    obtain ⟨v, e'⟩ := walkString_forever hk h n
    rw [e] at e'
    cases e'

end Sys2Proof.Machine
end

