-- ==== Sys2Proof/Laws/Trap.lean ====
section
/-! SUPPORT. TRAP routine by routine. -/

namespace Sys2Proof.Machine

/-! ### The string routines -/

/-- The model's table of what a word writes is the spec's. -/
theorem stringBytes_eq (c : Config) (r : StringRoutine) : stringBytes c r = routineWrites c r := by
  funext w
  cases r
  · rfl
  · show putspBytes c.putspZeroLow w = putspWrites c.putspZeroLow w
    unfold putspBytes putspWrites lowByte highByte field
    by_cases h : w.extractLsb' 0 8 = 0x00#8 <;> cases c.putspZeroLow <;> simp [h]

/-- A word with two zero bytes is zero. -/
theorem word_eq_zero {w : Word} (hl : lowByte w = 0x00#8) (hh : highByte w = 0x00#8) : w = 0x0000#16 := by
  apply BitVec.eq_of_getLsbD_eq
  intro i hi
  by_cases h8 : i < 8
  · have := congrArg (·.getLsbD i) hl
    simpa [lowByte, field, h8] using this
  · have := congrArg (·.getLsbD (i - 8)) hh
    simpa [highByte, field, show i - 8 < 8 by omega, show 8 + (i - 8) = i by omega] using this

/-- A non-zero word that writes anything writes a byte. -/
theorem stringBytes_some_byte (c : Config) (r : StringRoutine) (w : Word) (bs : List Byte) (hw : w ≠ 0x0000#16)
    (h : stringBytes c r w = some bs) : 1 ≤ bs.length := by
  cases r
  · simp only [stringBytes, putsBytes, Option.some.injEq] at h
    subst h; simp
  · simp only [stringBytes, putspBytes] at h
    by_cases hl : lowByte w = 0x00#8
    · have hh : highByte w ≠ 0x00#8 := fun hh => hw (word_eq_zero hl hh)
      cases hz : c.putspZeroLow <;> simp [hl, hh, hz] at h <;> subst h <;> simp
    · simp only [ne_eq, hl, not_false_eq_true, if_true, Option.some.injEq] at h
      subst h; simp

theorem stringBytes_none {c : Config} {r : StringRoutine} {w : Word} (h : stringBytes c r w = none) :
    r = .putsp ∧ c.putspZeroLow = .refuse := by
  cases r
  · simp [stringBytes, putsBytes] at h
  · refine ⟨rfl, ?_⟩
    simp only [stringBytes, putspBytes] at h
    by_cases hl : lowByte w = 0x00#8 <;> cases hz : c.putspZeroLow <;> simp [hl, hz] at h ⊢

theorem le_walkBound (s : State) : 65536 ≤ walkBound s :=
  Nat.le_mul_of_pos_right _ (Nat.succ_pos _)

/-- A key writes something. -/
theorem stringBytes_key (c : Config) (r : StringRoutine) (k : Byte) (hk : k ≠ 0x00#8) :
    stringBytes c r (zext8 k) ≠ none := by
  cases r
  · simp [stringBytes, putsBytes]
  · have : lowByte (zext8 k) = k := by
      apply BitVec.eq_of_toNat_eq
      have := k.isLt
      simp only [lowByte, field, zext8, BitVec.extractLsb'_toNat, BitVec.toNat_setWidth, Nat.shiftRight_zero]
      omega
    simp [stringBytes, putspBytes, this, hk]

/-- A string routine by what its walk came to. -/
theorem runString_of_walk {r : StringRoutine} {s : State} {w : Walk}
    (h : walkString (stringBytes s.cfg r) (walkBound s) (s.reg dataReg) s = w) :
    runString r s = w.outcome r := by
  rw [runString, h]

/-- The whole of what a string routine can do. A walk that goes on is back at the address in R0 and never ends. -/
theorem runString_cases (r : StringRoutine) (s : State) :
    (∃ t, runString r s = .next (t.setRoutine none) ∧ WalkFrame s t ∧
      WalkEnds (stringBytes s.cfg r) (s.reg dataReg) s t) ∨
    (∃ t, runString r s = .next (t.setRoutine (some r)) ∧ WalkFrame s t ∧ s.kbdSupply ≠ .ended ∧
      s.console.length + 65536 ≤ t.console.length ∧
      WalksTo (stringBytes s.cfg r) (s.reg dataReg) s (s.reg dataReg) t ∧
      (∀ u, ¬ WalkEnds (stringBytes s.cfg r) (s.reg dataReg) s u) ∧
      ¬ WalkHasNoMeaning (stringBytes s.cfg r) (s.reg dataReg) s) ∨
    (runString r s = .refused .putspZeroLow ∧ r = .putsp ∧ s.cfg.putspZeroLow = .refuse ∧
      WalkHasNoMeaning (stringBytes s.cfg r) (s.reg dataReg) s) := by
  rcases walkString_cases (stringBytes s.cfg r) (walkBound s) (s.reg dataReg) s with
    ⟨t, e, f, w⟩ | ⟨t, e, f, w⟩ | ⟨e, b, u, w, z, hn⟩
  · exact .inl ⟨t, runString_of_walk e, f, w⟩
  · refine .inr (.inl ⟨t, runString_of_walk e, f, fun he => ?_, ?_, ?_,
      walkString_going_never_ends (stringBytes_key s.cfg r) e⟩)
    · exact not_keys_of_ended he (keys_of_bound e).2
    · exact (Nat.add_le_add_left (le_walkBound s) _).trans (walkString_console (stringBytes_some_byte s.cfg r) e)
    · have : BitVec.ofNat 16 (walkBound s) = 0#16 := by
        apply BitVec.eq_of_toNat_eq
        simp [walkBound]
      simpa [this] using w
  · refine .inr (.inr ⟨runString_of_walk e, ?_⟩)
    obtain ⟨hr, hc⟩ := stringBytes_none hn
    exact ⟨hr, hc, b, u, w, z, hn⟩

/-- A walk that ends does so in the one step (R153). -/
theorem runString_of_walkEnds {r : StringRoutine} {s t : State}
    (h : WalkEnds (stringBytes s.cfg r) (s.reg dataReg) s t) : runString r s = .next (t.setRoutine none) := by
  obtain ⟨n, e⟩ := walkString_of_walkEnds h
  cases hw : walkString (stringBytes s.cfg r) (walkBound s) (s.reg dataReg) s with
  | going u => exact absurd h ((walkString_going_never_ends (stringBytes_key s.cfg r) hw).1 t)
  | ended u => cases walkString_unique hw e (by simp) (by simp); exact runString_of_walk hw
  | noMeaning => cases walkString_unique hw e (by simp) (by simp)

/-- So does one that comes to a word without a meaning. -/
theorem runString_of_noMeaning {r : StringRoutine} {s : State}
    (h : WalkHasNoMeaning (stringBytes s.cfg r) (s.reg dataReg) s) : runString r s = .refused .putspZeroLow := by
  obtain ⟨n, e⟩ := walkString_of_noMeaning h
  cases hw : walkString (stringBytes s.cfg r) (walkBound s) (s.reg dataReg) s with
  | going u => exact absurd h (walkString_going_never_ends (stringBytes_key s.cfg r) hw).2
  | ended u => cases walkString_unique hw e (by simp) (by simp)
  | noMeaning => exact runString_of_walk hw

/-- With a non-zero cell at every address but `KBSR_ADDR`, and a non-zero character before each keyboard operation for
ever, no walk comes to a zero word (R134). -/
theorem walkEnds_not_of_key_at_each_poll {bytes : Word → Option (List Byte)} {c : Byte} (hc : c ≠ 0x00#8) {a : Addr}
    {s t : State} (hw : s.cfg.kbsrAddr ≠ s.cfg.kbdrAddr) (hq : s.kbdQueue = []) (ha : s.kbdArrivals = [])
    (hs : s.kbdSupply = .repeating [[c]]) (hm : ∀ b, b ≠ s.cfg.kbsrAddr → s.mem.read b ≠ 0x0000#16) :
    ¬ WalkEnds bytes a s t := by
  have key : ∀ {u : State}, u.cfg.kbsrAddr ≠ u.cfg.kbdrAddr → u.kbdQueue = [] → u.kbdArrivals = [] →
      u.kbdSupply = .repeating [[c]] → (∀ b, b ≠ u.cfg.kbsrAddr → u.mem.read b ≠ 0x0000#16) → ∀ b,
      (memRead u b).1 ≠ 0x0000#16 ∧ (afterRead u b).kbdQueue = [] ∧ (afterRead u b).kbdArrivals = [] ∧
        (afterRead u b).kbdSupply = .repeating [[c]] ∧
        ∀ d, d ≠ u.cfg.kbsrAddr → (afterRead u b).mem.read d ≠ 0x0000#16 := by
    intro u hw hq ha hs hm b
    by_cases hb : b = u.cfg.kbsrAddr
    · subst hb
      have hq' : u.kbdArrive.kbdQueue = [c] := by
        simp [State.kbdArrive_kbdQueue, State.kbdBatch, hq, ha, hs, KbdSupply.batch]
      rw [memRead_fst, afterRead_status]
      rcases pollKeyboard_cases u with ⟨h, -⟩ | ⟨k, rest, h, e⟩
      · rw [hq'] at h; cases h
      rw [hq'] at h
      cases h
      rw [e]
      refine ⟨by simp [hw], rfl, by simp [State.kbdArrive_kbdArrivals, ha], ?_, fun d hd => ?_⟩
      · simp [State.kbdArrive_kbdSupply, State.kbdSupplyLater, ha, hs, KbdSupply.later]
      · by_cases hd' : d = u.cfg.kbdrAddr
        · subst hd'
          have : zext8 c ≠ 0x0000#16 := fun h0 => hc (by
            apply BitVec.eq_of_toNat_eq
            have := congrArg BitVec.toNat h0
            simpa [zext8, Nat.mod_eq_of_lt (Nat.lt_of_lt_of_le c.isLt (by decide : 2 ^ 8 ≤ 65536))] using this)
          simpa using this
        · simpa [hd, hd'] using hm d hd
    · rw [memRead_fst, afterRead_plain hb]
      exact ⟨hm b hb, hq, ha, hs, hm⟩
  rintro ⟨b, u, w, z, -⟩
  induction w with
  | here b u => exact (key hw hq ha hs hm b).1 z
  | more _ _ _ ih =>
    obtain ⟨-, k2, k3, k4, k5⟩ := key hw hq ha hs hm _
    exact ih (by simpa using hw) k2 k3 k4 (by simpa using k5) z

/-! ### GETC and IN -/

/-- What one attempt of `KbdRead` by GETC or IN leads to. -/
theorem trapGetcRoutine_cases (s : State) :
    (s.kbdArrive.kbdQueue = [] ∧
      trapGetcRoutine s = .next (s.kbdArrive.setPc (s.pc - 1#16))) ∨
    (∃ c rest, s.kbdArrive.kbdQueue = c :: rest ∧
      trapGetcRoutine s = .next (deliverKey c (s.kbdArrive.setQueue rest))) := by
  unfold trapGetcRoutine
  rw [kbdRead_eq_kbdPoll]
  rcases kbdPoll_cases s with ⟨h, e⟩ | ⟨c, rest, h, e⟩
  · exact .inl ⟨h, by rw [e]; rfl⟩
  · exact .inr ⟨c, rest, h, by rw [e]⟩

theorem trapInRoutine_cases (s : State) :
    (s.kbdArrive.kbdQueue = [] ∧
      trapInRoutine s = .next (s.kbdArrive.setPc (s.pc - 1#16))) ∨
    (∃ c rest, s.kbdArrive.kbdQueue = c :: rest ∧
      trapInRoutine s = .next ((deliverKey c (s.kbdArrive.setQueue rest)).conOut
        [lowByte ((deliverKey c (s.kbdArrive.setQueue rest)).reg dataReg)])) := by
  unfold trapInRoutine
  rw [kbdRead_eq_kbdPoll]
  rcases kbdPoll_cases s with ⟨h, e⟩ | ⟨c, rest, h, e⟩
  · exact .inl ⟨h, by rw [e]; rfl⟩
  · exact .inr ⟨c, rest, h, by rw [e]⟩

/-! ### A string away from the keyboard -/

/-- A string that never touches `KBSR_ADDR` is shorter than the address space. -/
theorem plainString_length {n : Nat} {a b : Addr} (h : ∀ k, k ≤ n → a + BitVec.ofNat 16 k ≠ b) :
    n < 65536 := by
  by_contra hc
  apply h (b - a).toNat (by have := (b - a).isLt; omega)
  simp only [BitVec.ofNat_toNat, BitVec.setWidth_eq]
  bv_omega

/-- The walk over such a string writes the bytes `wr` gives its `n` non-zero words and changes nothing else. -/
theorem walkString_plain {bytes : Word → Option (List Byte)} (wr : Word → List Byte) (s : State) {n m : Nat} {a : Addr}
    (c : List Byte) (hm : n < m) (away : ∀ k, k ≤ n → a + BitVec.ofNat 16 k ≠ s.cfg.kbsrAddr)
    (words : ∀ k, k < n → s.mem.read (a + BitVec.ofNat 16 k) ≠ 0x0000#16)
    (written : ∀ k, k < n → bytes (s.mem.read (a + BitVec.ofNat 16 k)) = some (wr (s.mem.read (a + BitVec.ofNat 16 k))))
    (zero : s.mem.read (a + BitVec.ofNat 16 n) = 0x0000#16) :
    walkString bytes m a (s.conOut c) =
      .ended (s.conOut (c ++ (List.range n).flatMap fun k => wr (s.mem.read (a + BitVec.ofNat 16 k)))) := by
  induction n generalizing a m c with
  | zero =>
    obtain ⟨m, rfl⟩ : ∃ k, m = k + 1 := ⟨m - 1, by omega⟩
    have ha : a ≠ s.cfg.kbsrAddr := by simpa using away 0 (by omega)
    have zero : s.mem.read a = 0x0000#16 := by simpa using zero
    simp [walkString, afterRead_plain (s := s.conOut c) (a := a) (by simpa using ha), zero]
  | succ n ih =>
    obtain ⟨m, rfl⟩ : ∃ k, m = k + 1 := ⟨m - 1, by omega⟩
    have ha : a ≠ s.cfg.kbsrAddr := by simpa using away 0 (by omega)
    have hw : s.mem.read a ≠ 0x0000#16 := by simpa using words 0 (by omega)
    have hb : bytes (s.mem.read a) = some (wr (s.mem.read a)) := by simpa using written 0 (by omega)
    have shift : ∀ k, a + 1#16 + BitVec.ofNat 16 k = a + BitVec.ofNat 16 (k + 1) := by
      intro k
      rw [BitVec.add_assoc, Nat.add_comm k 1, BitVec.ofNat_add]
    have rest := ih (m := m) (a := a + 1#16) (c ++ wr (s.mem.read a)) (by omega)
      (fun k hk => by rw [shift]; exact away _ (by omega))
      (fun k hk => by rw [shift]; exact words _ (by omega))
      (fun k hk => by rw [shift]; exact written _ (by omega)) (by rw [shift]; exact zero)
    simp only [shift] at rest
    simp only [walkString, memRead_fst, memRead_snd, State.conOut_mem,
      afterRead_plain (s := s.conOut c) (a := a) (by simpa using ha), if_neg hw, hb, State.conOut_conOut]
    rw [rest, List.range_succ_eq_map]
    simp [List.flatMap_map]

/-- A string routine on such a string. -/
theorem runString_plain (r : StringRoutine) (wr : Word → List Byte) (s : State) {n : Nat}
    (away : ∀ k, k ≤ n → s.reg dataReg + BitVec.ofNat 16 k ≠ s.cfg.kbsrAddr)
    (words : ∀ k, k < n → s.mem.read (s.reg dataReg + BitVec.ofNat 16 k) ≠ 0x0000#16)
    (written : ∀ k, k < n → stringBytes s.cfg r (s.mem.read (s.reg dataReg + BitVec.ofNat 16 k)) =
      some (wr (s.mem.read (s.reg dataReg + BitVec.ofNat 16 k))))
    (zero : s.mem.read (s.reg dataReg + BitVec.ofNat 16 n) = 0x0000#16) :
    runString r s = .next ((s.conOut
      ((List.range n).flatMap fun k => wr (s.mem.read (s.reg dataReg + BitVec.ofNat 16 k)))).setRoutine none) := by
  have bound : n < walkBound s := by
    have := plainString_length away
    unfold walkBound
    omega
  have walk := walkString_plain wr s [] bound away words written zero
  rw [State.conOut_nil] at walk
  exact runString_of_walk walk

/-! ### Which routine a vector selects -/

theorem configWf_addr {c : Config} (h : configWf c = true) : c.kbsrAddr ≠ c.kbdrAddr := by
  simp only [configWf, Bool.and_eq_true, decide_eq_true_eq] at h
  exact h.1

theorem configWf_vectors {c : Config} (h : configWf c = true) :
    [c.trapGetc, c.trapOut, c.trapPuts, c.trapIn, c.trapPutsp, trapHalt].Nodup := by
  simp only [configWf, Bool.and_eq_true, decide_eq_true_eq] at h
  exact h.2

theorem execTrap_getc (s : State) : execTrap (zext8 s.cfg.trapGetc) s = trapGetcRoutine s := by
  simp [execTrap]

theorem execTrap_out {s : State} (h : configWf s.cfg = true) :
    execTrap (zext8 s.cfg.trapOut) s = trapOutRoutine s := by
  have n := configWf_vectors h
  simp only [List.nodup_cons, List.mem_cons, not_or] at n
  unfold execTrap
  rw [if_neg fun e => n.1.1 (zext8_injective e).symm, if_pos rfl]

theorem execTrap_puts {s : State} (h : configWf s.cfg = true) :
    execTrap (zext8 s.cfg.trapPuts) s = trapPutsRoutine s := by
  have n := configWf_vectors h
  simp only [List.nodup_cons, List.mem_cons, not_or] at n
  unfold execTrap
  rw [if_neg fun e => n.1.2.1 (zext8_injective e).symm, if_neg fun e => n.2.1.1 (zext8_injective e).symm,
    if_pos rfl]

theorem execTrap_in {s : State} (h : configWf s.cfg = true) :
    execTrap (zext8 s.cfg.trapIn) s = trapInRoutine s := by
  have n := configWf_vectors h
  simp only [List.nodup_cons, List.mem_cons, not_or] at n
  unfold execTrap
  rw [if_neg fun e => n.1.2.2.1 (zext8_injective e).symm,
    if_neg fun e => n.2.1.2.1 (zext8_injective e).symm, if_neg fun e => n.2.2.1.1 (zext8_injective e).symm,
    if_pos rfl]

theorem execTrap_putsp {s : State} (h : configWf s.cfg = true) :
    execTrap (zext8 s.cfg.trapPutsp) s = trapPutspRoutine s := by
  have n := configWf_vectors h
  simp only [List.nodup_cons, List.mem_cons, not_or] at n
  unfold execTrap
  rw [if_neg fun e => n.1.2.2.2.1 (zext8_injective e).symm,
    if_neg fun e => n.2.1.2.2.1 (zext8_injective e).symm,
    if_neg fun e => n.2.2.1.2.1 (zext8_injective e).symm,
    if_neg fun e => n.2.2.2.1.1 (zext8_injective e).symm, if_pos rfl]

theorem execTrap_halt {s : State} (h : configWf s.cfg = true) :
    execTrap (zext8 trapHalt) s = trapHaltRoutine s := by
  have n := configWf_vectors h
  simp only [List.nodup_cons, List.mem_cons, not_or] at n
  unfold execTrap
  rw [if_neg fun e => n.1.2.2.2.2.1 (zext8_injective e).symm,
    if_neg fun e => n.2.1.2.2.2.1 (zext8_injective e).symm,
    if_neg fun e => n.2.2.1.2.2.1 (zext8_injective e).symm,
    if_neg fun e => n.2.2.2.1.2.1 (zext8_injective e).symm,
    if_neg fun e => n.2.2.2.2.1.1 (zext8_injective e).symm, if_pos rfl]

/-- What TRAP can do: one of the six routines, or the fatal error of a vector that selects none. -/
theorem execTrap_cases (vect : Word) (s : State) :
    (vect = zext8 s.cfg.trapGetc ∧ execTrap vect s = trapGetcRoutine s) ∨
    (vect = zext8 s.cfg.trapOut ∧ execTrap vect s = trapOutRoutine s) ∨
    (vect = zext8 s.cfg.trapPuts ∧ execTrap vect s = trapPutsRoutine s) ∨
    (vect = zext8 s.cfg.trapIn ∧ execTrap vect s = trapInRoutine s) ∨
    (vect = zext8 s.cfg.trapPutsp ∧ execTrap vect s = trapPutspRoutine s) ∨
    (vect = zext8 trapHalt ∧ execTrap vect s = trapHaltRoutine s) ∨
    (vect ≠ zext8 s.cfg.trapGetc ∧ vect ≠ zext8 s.cfg.trapOut ∧ vect ≠ zext8 s.cfg.trapPuts ∧
      vect ≠ zext8 s.cfg.trapIn ∧ vect ≠ zext8 s.cfg.trapPutsp ∧ vect ≠ zext8 trapHalt ∧
      execTrap vect s = raiseFatal (.unknownTrapVector vect) s.link) := by
  unfold execTrap
  split
  · next h => exact .inl ⟨h, rfl⟩
  split
  · next h => exact .inr (.inl ⟨h, rfl⟩)
  split
  · next h => exact .inr (.inr (.inl ⟨h, rfl⟩))
  split
  · next h => exact .inr (.inr (.inr (.inl ⟨h, rfl⟩)))
  split
  · next h => exact .inr (.inr (.inr (.inr (.inl ⟨h, rfl⟩))))
  split
  · next h => exact .inr (.inr (.inr (.inr (.inr (.inl ⟨h, rfl⟩)))))
  · next h1 h2 h3 h4 h5 h6 =>
    exact .inr (.inr (.inr (.inr (.inr (.inr ⟨h1, h2, h3, h4, h5, h6, rfl⟩)))))

end Sys2Proof.Machine
end

