-- ==== Sys2Proof/Laws/Independence.lean ====
section
/-! SUPPORT. The shared operations read neither COND nor the running flag nor the routine the machine is in: a
different one before is the same operation but for it. -/

namespace Sys2Proof.Machine

@[simp] theorem withCond_cfg (s : State) (c : BitVec 3) : (s.withCond c).cfg = s.cfg := rfl
@[simp] theorem withCond_pc (s : State) (c : BitVec 3) : (s.withCond c).pc = s.pc := rfl
@[simp] theorem withCond_mem (s : State) (c : BitVec 3) : (s.withCond c).mem = s.mem := rfl
@[simp] theorem withCond_reg (s : State) (c : BitVec 3) (r : Reg) : (s.withCond c).reg r = s.reg r := rfl
@[simp] theorem withRun_cfg (s : State) (b : Bool) : (s.withRun b).cfg = s.cfg := rfl
@[simp] theorem withRun_pc (s : State) (b : Bool) : (s.withRun b).pc = s.pc := rfl
@[simp] theorem withRun_mem (s : State) (b : Bool) : (s.withRun b).mem = s.mem := rfl
@[simp] theorem withRun_reg (s : State) (b : Bool) (r : Reg) : (s.withRun b).reg r = s.reg r := rfl

theorem kbdPoll_withCond (s : State) (c : BitVec 3) :
    (s.withCond c).kbdPoll = (s.kbdPoll.1, s.kbdPoll.2.withCond c) := by
  rcases kbdPoll_cases s with ⟨h, e⟩ | ⟨k, rest, h, e⟩ <;>
    rcases kbdPoll_cases (s.withCond c) with ⟨h', e'⟩ | ⟨k', rest', h', e'⟩
  · rw [e, e']; rfl
  · exact absurd (h.symm.trans h') (by simp)
  · exact absurd (h'.symm.trans h) (by simp)
  · cases h.symm.trans h'
    rw [e, e']; rfl

theorem kbdPoll_withRun (s : State) (b : Bool) :
    (s.withRun b).kbdPoll = (s.kbdPoll.1, s.kbdPoll.2.withRun b) := by
  rcases kbdPoll_cases s with ⟨h, e⟩ | ⟨k, rest, h, e⟩ <;>
    rcases kbdPoll_cases (s.withRun b) with ⟨h', e'⟩ | ⟨k', rest', h', e'⟩
  · rw [e, e']; rfl
  · exact absurd (h.symm.trans h') (by simp)
  · exact absurd (h'.symm.trans h) (by simp)
  · cases h.symm.trans h'
    rw [e, e']; rfl

theorem afterRead_withCond (s : State) (c : BitVec 3) (a : Addr) :
    afterRead (s.withCond c) a = (afterRead s a).withCond c := by
  unfold afterRead
  rw [withCond_cfg]
  split
  · unfold pollKeyboard
    rw [kbdPoll_withCond]
    rcases s.kbdPoll with ⟨_ | k, t⟩ <;> rfl
  · rfl

theorem afterRead_withRun (s : State) (b : Bool) (a : Addr) :
    afterRead (s.withRun b) a = (afterRead s a).withRun b := by
  unfold afterRead
  rw [withRun_cfg]
  split
  · unfold pollKeyboard
    rw [kbdPoll_withRun]
    rcases s.kbdPoll with ⟨_ | k, t⟩ <;> rfl
  · rfl

theorem kbdPoll_setRoutine (s : State) (r : Option StringRoutine) :
    (s.setRoutine r).kbdPoll = (s.kbdPoll.1, s.kbdPoll.2.setRoutine r) := by
  rcases kbdPoll_cases s with ⟨h, e⟩ | ⟨k, rest, h, e⟩ <;>
    rcases kbdPoll_cases (s.setRoutine r) with ⟨h', e'⟩ | ⟨k', rest', h', e'⟩
  · rw [e, e']; rfl
  · exact absurd (h.symm.trans h') (by simp)
  · exact absurd (h'.symm.trans h) (by simp)
  · cases h.symm.trans h'
    rw [e, e']; rfl

theorem afterRead_setRoutine (s : State) (r : Option StringRoutine) (a : Addr) :
    afterRead (s.setRoutine r) a = (afterRead s a).setRoutine r := by
  unfold afterRead
  rw [State.setRoutine_cfg]
  split
  · unfold pollKeyboard
    rw [kbdPoll_setRoutine]
    rcases s.kbdPoll with ⟨_ | k, t⟩ <;> rfl
  · rfl

/-- The loop does not look at the routine the machine is in. -/
theorem WalksTo.setRoutine {bytes : Word → Option (List Byte)} {a b : Addr} {s t : State} (r : Option StringRoutine)
    (h : WalksTo bytes a s b t) : WalksTo bytes a (s.setRoutine r) b (t.setRoutine r) := by
  induction h with
  | here => exact .here _ _
  | @more a b s t bs nonzero written _ ih =>
    refine .more (bs := bs) ?_ ?_ ?_
    · rw [memRead_fst, afterRead_setRoutine]; exact nonzero
    · rw [memRead_fst, afterRead_setRoutine]; exact written
    · rw [memRead_snd, afterRead_setRoutine]; exact ih

/-- A function of states over what a walk came to. -/
def Walk.map (f : State → State) : Walk → Walk
  | .ended s => .ended (f s)
  | .going s => .going (f s)
  | .noMeaning => .noMeaning

theorem walkString_withCond (bytes : Word → Option (List Byte)) (n : Nat) (a : Addr) (s : State) (c : BitVec 3) :
    walkString bytes n a (s.withCond c) = (walkString bytes n a s).map (·.withCond c) := by
  induction n generalizing a s with
  | zero => rfl
  | succ n ih =>
    rw [walkString_succ, walkString_succ, afterRead_withCond, withCond_mem]
    by_cases h : (afterRead s a).mem.read a = 0x0000#16
    · rw [if_pos h, if_pos h]; rfl
    · rw [if_neg h, if_neg h]
      cases bytes ((afterRead s a).mem.read a) with
      | none => rfl
      | some bs => exact ih _ ((afterRead s a).conOut bs)

theorem walkString_withRun (bytes : Word → Option (List Byte)) (n : Nat) (a : Addr) (s : State) (b : Bool) :
    walkString bytes n a (s.withRun b) = (walkString bytes n a s).map (·.withRun b) := by
  induction n generalizing a s with
  | zero => rfl
  | succ n ih =>
    rw [walkString_succ, walkString_succ, afterRead_withRun, withRun_mem]
    by_cases h : (afterRead s a).mem.read a = 0x0000#16
    · rw [if_pos h, if_pos h]; rfl
    · rw [if_neg h, if_neg h]
      cases bytes ((afterRead s a).mem.read a) with
      | none => rfl
      | some bs => exact ih _ ((afterRead s a).conOut bs)

end Sys2Proof.Machine
end

