-- ==== Sys2Proof/Laws/PerInstr.lean ====
section
/-! SUPPORT. Facts about every instruction as syntax, one lemma per constructor. -/

namespace Sys2Proof.Laws.EncodesToOwnRow

/-- The encoded word is of the opcode-table row that carries the instruction's mnemonic (R62, R67). -/
def Statement (i : Instr) : Prop :=
  ∃ row ∈ opcodeTable, row.mnemonic = i.mnemonic ∧ encode i &&& row.mask = row.value

/-- Two words are equal when their 16 bits are. -/
theorem eq_of_bits {v w : Word} (h : ∀ k : Fin 16, v.getLsbD k = w.getLsbD k) : v = w :=
  BitVec.eq_of_getLsbD_eq fun k hk => h ⟨k, hk⟩

theorem br (n z p : Bool) (off : Word) : Statement (.br n z p off) := by
  refine ⟨⟨"BR", 0x0000#16, 0xF000#16⟩, by simp [opcodeTable], rfl, eq_of_bits fun k => ?_⟩
  fin_cases k <;> simp only [encode, BitVec.getLsbD_and, BitVec.getLsbD_append] <;> simp

theorem addr (dr sr1 sr2 : Reg) : Statement (.addr dr sr1 sr2) := by
  refine ⟨⟨"ADDR", 0x1000#16, 0xF020#16⟩, by simp [opcodeTable], rfl, eq_of_bits fun k => ?_⟩
  fin_cases k <;> simp only [encode, BitVec.getLsbD_and, BitVec.getLsbD_append] <;> simp

theorem addi (dr sr1 : Reg) (imm : Word) : Statement (.addi dr sr1 imm) := by
  refine ⟨⟨"ADDI", 0x1020#16, 0xF020#16⟩, by simp [opcodeTable], rfl, eq_of_bits fun k => ?_⟩
  fin_cases k <;> simp only [encode, BitVec.getLsbD_and, BitVec.getLsbD_append] <;> simp

theorem ld (dr : Reg) (off : Word) : Statement (.ld dr off) := by
  refine ⟨⟨"LD", 0x2000#16, 0xF000#16⟩, by simp [opcodeTable], rfl, eq_of_bits fun k => ?_⟩
  fin_cases k <;> simp only [encode, BitVec.getLsbD_and, BitVec.getLsbD_append] <;> simp

theorem st (sr : Reg) (off : Word) : Statement (.st sr off) := by
  refine ⟨⟨"ST", 0x3000#16, 0xF000#16⟩, by simp [opcodeTable], rfl, eq_of_bits fun k => ?_⟩
  fin_cases k <;> simp only [encode, BitVec.getLsbD_and, BitVec.getLsbD_append] <;> simp

theorem jsr (off : Word) : Statement (.jsr off) := by
  refine ⟨⟨"JSR", 0x4800#16, 0xF800#16⟩, by simp [opcodeTable], rfl, eq_of_bits fun k => ?_⟩
  fin_cases k <;> simp only [encode, BitVec.getLsbD_and, BitVec.getLsbD_append] <;> simp

theorem jsrr (baseR : Reg) : Statement (.jsrr baseR) := by
  refine ⟨⟨"JSRR", 0x4000#16, 0xF800#16⟩, by simp [opcodeTable], rfl, eq_of_bits fun k => ?_⟩
  fin_cases k <;> simp only [encode, BitVec.getLsbD_and, BitVec.getLsbD_append] <;> simp

theorem andr (dr sr1 sr2 : Reg) : Statement (.andr dr sr1 sr2) := by
  refine ⟨⟨"ANDR", 0x5000#16, 0xF020#16⟩, by simp [opcodeTable], rfl, eq_of_bits fun k => ?_⟩
  fin_cases k <;> simp only [encode, BitVec.getLsbD_and, BitVec.getLsbD_append] <;> simp

theorem andi (dr sr1 : Reg) (imm : Word) : Statement (.andi dr sr1 imm) := by
  refine ⟨⟨"ANDI", 0x5020#16, 0xF020#16⟩, by simp [opcodeTable], rfl, eq_of_bits fun k => ?_⟩
  fin_cases k <;> simp only [encode, BitVec.getLsbD_and, BitVec.getLsbD_append] <;> simp

theorem ldr (dr baseR : Reg) (off : Word) : Statement (.ldr dr baseR off) := by
  refine ⟨⟨"LDR", 0x6000#16, 0xF000#16⟩, by simp [opcodeTable], rfl, eq_of_bits fun k => ?_⟩
  fin_cases k <;> simp only [encode, BitVec.getLsbD_and, BitVec.getLsbD_append] <;> simp

theorem str (sr baseR : Reg) (off : Word) : Statement (.str sr baseR off) := by
  refine ⟨⟨"STR", 0x7000#16, 0xF000#16⟩, by simp [opcodeTable], rfl, eq_of_bits fun k => ?_⟩
  fin_cases k <;> simp only [encode, BitVec.getLsbD_and, BitVec.getLsbD_append] <;> simp

theorem rti : Statement .rti := 
  ⟨⟨"RTI", 0x8000#16, 0xF000#16⟩, by simp [opcodeTable], rfl, rfl⟩

theorem not (dr sr : Reg) : Statement (.not dr sr) := by
  refine ⟨⟨"NOT", 0x9000#16, 0xF000#16⟩, by simp [opcodeTable], rfl, eq_of_bits fun k => ?_⟩
  fin_cases k <;> simp only [encode, BitVec.getLsbD_and, BitVec.getLsbD_append] <;> simp

theorem ldi (dr : Reg) (off : Word) : Statement (.ldi dr off) := by
  refine ⟨⟨"LDI", 0xA000#16, 0xF000#16⟩, by simp [opcodeTable], rfl, eq_of_bits fun k => ?_⟩
  fin_cases k <;> simp only [encode, BitVec.getLsbD_and, BitVec.getLsbD_append] <;> simp

theorem sti (sr : Reg) (off : Word) : Statement (.sti sr off) := by
  refine ⟨⟨"STI", 0xB000#16, 0xF000#16⟩, by simp [opcodeTable], rfl, eq_of_bits fun k => ?_⟩
  fin_cases k <;> simp only [encode, BitVec.getLsbD_and, BitVec.getLsbD_append] <;> simp

theorem jmp (baseR : Reg) : Statement (.jmp baseR) := by
  refine ⟨⟨"JMP", 0xC000#16, 0xF000#16⟩, by simp [opcodeTable], rfl, eq_of_bits fun k => ?_⟩
  fin_cases k <;> simp only [encode, BitVec.getLsbD_and, BitVec.getLsbD_append] <;> simp

theorem res : Statement .res := 
  ⟨⟨"RES", 0xD000#16, 0xF000#16⟩, by simp [opcodeTable], rfl, rfl⟩

theorem lea (dr : Reg) (off : Word) : Statement (.lea dr off) := by
  refine ⟨⟨"LEA", 0xE000#16, 0xF000#16⟩, by simp [opcodeTable], rfl, eq_of_bits fun k => ?_⟩
  fin_cases k <;> simp only [encode, BitVec.getLsbD_and, BitVec.getLsbD_append] <;> simp

theorem trap (vect : Word) : Statement (.trap vect) := by
  refine ⟨⟨"TRAP", 0xF000#16, 0xF000#16⟩, by simp [opcodeTable], rfl, eq_of_bits fun k => ?_⟩
  fin_cases k <;> simp only [encode, BitVec.getLsbD_and, BitVec.getLsbD_append] <;> simp

end Sys2Proof.Laws.EncodesToOwnRow
end

