-- ==== Sys2Proof/Laws/Step.lean ====
section
/-! SUPPORT. The step and the host's hook for placing an instruction. -/

namespace Sys2Proof.Machine

theorem step_running {s : State} (h : s.run = true) (hn : s.routine = none) :
    step s = exec (decode (fetch s).1) (fetch s).2 := by
  simp [step, h, hn]

theorem step_in_routine {s : State} {r : StringRoutine} (h : s.run = true) (hr : s.routine = some r) :
    step s = runString r s := by
  simp [step, h, hr]

theorem step_stopped {s : State} (h : s.run = false) : step s = .refused .notRunning := by
  simp [step, h]

/-- `withFetchWord` does what it is for: the very next step runs the instruction of the word placed. -/
theorem step_withFetchWord (s : State) (w : Word) :
    step (s.withFetchWord 16 w.toNat) =
      exec (decode w) ((s.withFetchWord 16 w.toNat).setPc ((s.withFetchWord 16 w.toNat).pc + 1#16)) := by
  have hw : BitVec.ofNat 16 (w.toNat % 2 ^ 16) = w := by
    rw [Nat.mod_eq_of_lt w.isLt, BitVec.ofNat_toNat, BitVec.setWidth_eq]
  have hpc : (s.withFetchWord 16 w.toNat).pc ≠ (s.withFetchWord 16 w.toNat).cfg.kbsrAddr := by
    simp only [State.withFetchWord]
    split
    · next h => rw [h]; intro e; bv_omega
    · next h => exact h
  rw [step_running rfl rfl, fetch_plain hpc]
  have : (s.withFetchWord 16 w.toNat).mem.read (s.withFetchWord 16 w.toNat).pc = w := by
    simp only [State.withFetchWord, Memory.read_write_self, hw]
  rw [this]

end Sys2Proof.Machine
end

