-- ==== Sys2Proof/Tests/Slice0.lean ====
section
/-! SUPPORT. Tests on one step or one word each, with the expected values of spec/95_test_vectors.md (the row's name
stands in each docstring), and for every statement with hypotheses a concrete state and operands that meet them. -/

namespace Sys2Proof.Tests

open Sys2Proof Sys2Proof.Machine

/-! ### WellFormed refuses what no field can hold (R65) -/

theorem test_wellFormed_imm5 :
    (Instr.addi 0 0 0x0010#16).wellFormed = false ∧ (Instr.andi 0 0 0xFFEF#16).wellFormed = false := by decide

theorem test_wellFormed_off6 :
    (Instr.ldr 0 0 0x0020#16).wellFormed = false ∧ (Instr.str 0 0 0xFFDF#16).wellFormed = false := by decide

theorem test_wellFormed_off9_read :
    (Instr.br true true true 0x0100#16).wellFormed = false ∧ (Instr.ld 0 0xFEFF#16).wellFormed = false ∧
    (Instr.ldi 0 0x0100#16).wellFormed = false ∧ (Instr.lea 0 0xFEFF#16).wellFormed = false := by decide

theorem test_wellFormed_off9_write :
    (Instr.st 0 0x0100#16).wellFormed = false ∧ (Instr.sti 0 0xFEFF#16).wellFormed = false := by decide

theorem test_wellFormed_off11 :
    (Instr.jsr 0x0400#16).wellFormed = false ∧ (Instr.jsr 0xFBFF#16).wellFormed = false := by decide

theorem test_wellFormed_vect : (Instr.trap 0x0100#16).wellFormed = false := by decide

/-- The largest and smallest values of each field are well formed. -/
theorem test_wellFormed_bounds :
    (Instr.addi 0 0 0x000F#16).wellFormed = true ∧ (Instr.addi 0 0 0xFFF0#16).wellFormed = true ∧
    (Instr.ldr 0 0 0xFFE0#16).wellFormed = true ∧ (Instr.ld 0 0xFF00#16).wellFormed = true ∧
    (Instr.jsr 0xFC00#16).wellFormed = true ∧ (Instr.trap 0x00FF#16).wellFormed = true := by decide

/-! ### Extension (95_test_vectors.md E1, E2 and section 2) -/

theorem test_sext :
    sext 0x0F#5 = 0x000F#16 ∧ sext 0x10#5 = 0xFFF0#16 ∧ sext 0x20#6 = 0xFFE0#16 ∧ sext 0x1FD#9 = 0xFFFD#16 ∧
    sext 0x400#11 = 0xFC00#16 := by decide

theorem test_zext8 : zext8 0x20#8 = 0x0020#16 ∧ zext8 0xFF#8 = 0x00FF#16 := by decide

/-! ### Decoding, every constructor, with the words of 95_test_vectors.md section 3 written field by field as R67
draws the formats -/

theorem test_decode_br :
    decode (0b0000#4 ++ 0b010#3 ++ 0b000000010#9) = .br false true false 0x0002#16 ∧
    decode 0x0FFF#16 = .br true true true 0xFFFF#16 := by decide

theorem test_decode_addr :
    decode (0b0001#4 ++ 0b010#3 ++ 0b000#3 ++ 0b0#1 ++ 0b11#2 ++ 0b001#3) = .addr 2 0 1 ∧
    decode 0x1401#16 = .addr 2 0 1 := by decide

theorem test_decode_addi :
    decode (0b0001#4 ++ 0b001#3 ++ 0b001#3 ++ 0b1#1 ++ 0b11111#5) = .addi 1 1 0xFFFF#16 ∧
    decode 0x1025#16 = .addi 0 0 0x0005#16 := by decide

theorem test_decode_ld : decode (0b0010#4 ++ 0b001#3 ++ 0b000000010#9) = .ld 1 0x0002#16 := by decide

theorem test_decode_st : decode (0b0011#4 ++ 0b000#3 ++ 0b111111111#9) = .st 0 0xFFFF#16 := by decide

theorem test_decode_jsr :
    decode (0b0100#4 ++ 0b1#1 ++ 0b10000000000#11) = .jsr 0xFC00#16 ∧ decode 0x4803#16 = .jsr 0x0003#16 := by
  decide

theorem test_decode_jsrr :
    decode (0b0100#4 ++ 0b0#1 ++ 0b11#2 ++ 0b010#3 ++ 0b111111#6) = .jsrr 2 ∧ decode 0x4080#16 = .jsrr 2 := by
  decide

theorem test_decode_andr :
    decode (0b0101#4 ++ 0b011#3 ++ 0b001#3 ++ 0b0#1 ++ 0b00#2 ++ 0b010#3) = .andr 3 1 2 := by decide

theorem test_decode_andi :
    decode (0b0101#4 ++ 0b000#3 ++ 0b000#3 ++ 0b1#1 ++ 0b00000#5) = .andi 0 0 0x0000#16 := by decide

theorem test_decode_ldr : decode (0b0110#4 ++ 0b001#3 ++ 0b010#3 ++ 0b111111#6) = .ldr 1 2 0xFFFF#16 := by decide

theorem test_decode_str : decode (0b0111#4 ++ 0b001#3 ++ 0b010#3 ++ 0b000101#6) = .str 1 2 0x0005#16 := by decide

theorem test_decode_rti : decode 0x8000#16 = .rti ∧ decode 0x8ABC#16 = .rti := by decide

theorem test_decode_not :
    decode (0b1001#4 ++ 0b001#3 ++ 0b000#3 ++ 0b111111#6) = .not 1 0 ∧ decode 0x9200#16 = .not 1 0 := by decide

theorem test_decode_ldi : decode (0b1010#4 ++ 0b000#3 ++ 0b000000001#9) = .ldi 0 0x0001#16 := by decide

theorem test_decode_sti : decode (0b1011#4 ++ 0b001#3 ++ 0b000000011#9) = .sti 1 0x0003#16 := by decide

theorem test_decode_jmp :
    decode (0b1100#4 ++ 0b000#3 ++ 0b111#3 ++ 0b000000#6) = .jmp 7 ∧ decode 0xCFFF#16 = .jmp 7 := by decide

theorem test_decode_res : decode 0xD000#16 = .res ∧ decode 0xDFFF#16 = .res := by decide

theorem test_decode_lea : decode (0b1110#4 ++ 0b000#3 ++ 0b000000010#9) = .lea 0 0x0002#16 := by decide

theorem test_decode_trap :
    decode (0b1111#4 ++ 0b0000#4 ++ 0b00100101#8) = .trap 0x0025#16 ∧ decode 0xFF25#16 = .trap 0x0025#16 ∧
    decode 0xF0FF#16 = .trap 0x00FF#16 := by decide

/-- The words of R74's other spellings RET, NOP and BR without letters are those of the core instructions. -/
theorem test_decode_aliases :
    decode 0xC1C0#16 = .jmp 7 ∧ decode 0x0000#16 = .br false false false 0x0000#16 ∧
    decode 0x0E00#16 = .br true true true 0x0000#16 := by decide

/-- The words of E7's image are those the encoder gives for its mnemonics. -/
theorem test_encode_example :
    encode (.addi 0 0 0x0005#16) = 0x1025#16 ∧ encode (.addi 1 0 0x000A#16) = 0x122A#16 ∧
    encode (.trap 0x0025#16) = 0xF025#16 ∧ encode (.not 1 0) = 0x923F#16 := by decide

/-! ### One step -/

/-- The reset state with the word `w` at `a`, `pc` there, and other cells set. -/
def placed (a : Addr) (w : Word) (cells : List (Addr × Word)) : State :=
  { State.reset with
    pc := a
    mem := cells.foldl (fun m c => m.write c.1 c.2) (Memory.write [] a w) }

/-- The step answers a next state of which the test holds. -/
def stepGives (s : State) (test : State → Bool) : Bool :=
  match step s with
  | .next t => test t
  | _ => false

/-- The state after the step, if there is one. -/
def nextOf (o : Host.Outcome State Fault Refusal) : Option State :=
  match o with
  | .next t => some t
  | _ => none

/-- The fault the step ends in, if it does. -/
def faultOf (o : Host.Outcome State Fault Refusal) : Option Fault :=
  match o with
  | .fault r => some r
  | _ => none

/-- The refusal the step ends in, if it does. -/
def refusalOf (o : Host.Outcome State Fault Refusal) : Option Refusal :=
  match o with
  | .refused r => some r
  | _ => none

/-- A1. -/
theorem test_addr_wraps :
    stepGives (((placed 0x3000#16 0x1401#16 []).setReg 0 0xFFFF#16).setReg 1 0x0001#16)
      (fun t => t.reg 2 == 0x0000#16 && t.cond == 0b010#3 && t.pc == 0x3001#16) = true := by decide

/-- A2. -/
theorem test_addr_overflow :
    stepGives (((placed 0x3000#16 0x1401#16 []).setReg 0 0x7FFF#16).setReg 1 0x0001#16)
      (fun t => t.reg 2 == 0x8000#16 && t.cond == 0b100#3) = true := by decide

/-- A6. -/
theorem test_addi_smallest :
    stepGives ((placed 0x3000#16 0x1030#16 []).setReg 0 0x0010#16)
      (fun t => t.reg 0 == 0x0000#16 && t.cond == 0b010#3) = true := by decide

/-- A9. -/
theorem test_andr :
    stepGives (((placed 0x3000#16 0x5642#16 []).setReg 1 0xFF00#16).setReg 2 0x0FF0#16)
      (fun t => t.reg 3 == 0x0F00#16 && t.cond == 0b001#3) = true := by decide

/-- A11. -/
theorem test_andi_extends :
    stepGives ((placed 0x3000#16 0x503F#16 []).setReg 0 0x8001#16)
      (fun t => t.reg 0 == 0x8001#16 && t.cond == 0b100#3) = true := by decide

/-- A15. -/
theorem test_not :
    stepGives ((placed 0x3000#16 0x9200#16 []).setReg 0 0x00FF#16)
      (fun t => t.reg 1 == 0xFF00#16 && t.cond == 0b100#3) = true := by decide

/-- B2. -/
theorem test_br_wraps : stepGives (placed 0xFFFF#16 0x0E01#16 []) (fun t => t.pc == 0x0001#16) = true := by decide

/-- B4. -/
theorem test_br_not_taken :
    stepGives (placed 0x3000#16 0x08FF#16 []) (fun t => t.pc == 0x3001#16 && t.cond == 0b010#3) = true := by decide

/-- B11. -/
theorem test_jmp :
    stepGives ((placed 0x3000#16 0xCFFF#16 []).setReg 7 0x1234#16)
      (fun t => t.pc == 0x1234#16 && t.reg 7 == 0x1234#16) = true := by decide

/-- B7. -/
theorem test_jsr :
    stepGives (placed 0x3000#16 0x4C00#16 []) (fun t => t.pc == 0x2C01#16 && t.reg 7 == 0x3001#16) = true := by
  decide

/-- B10. -/
theorem test_jsrr :
    stepGives ((placed 0x3000#16 0x46BF#16 []).setReg 2 0x4000#16)
      (fun t => t.pc == 0x4000#16 && t.reg 7 == 0x3001#16) = true := by decide

/-- B9. -/
theorem test_jsrr_r7 :
    stepGives ((placed 0x3000#16 0x41C0#16 []).setReg 7 0x5000#16)
      (fun t => t.pc == 0x3001#16 && t.reg 7 == 0x3001#16) = true := by decide

/-- L-LD. -/
theorem test_ld :
    stepGives (placed 0x3000#16 0x2202#16 [(0x3003#16, 0xABCD#16)])
      (fun t => t.reg 1 == 0xABCD#16 && t.cond == 0b100#3 && t.pc == 0x3001#16) = true := by decide

/-- L2. -/
theorem test_ld_wraps :
    stepGives (placed 0xFFFF#16 0x2000#16 [(0x0000#16, 0x8001#16)])
      (fun t => t.reg 0 == 0x8001#16 && t.pc == 0x0000#16) = true := by decide

/-- L-LDI. -/
theorem test_ldi :
    stepGives (placed 0x3000#16 0xA001#16 [(0x3002#16, 0x4000#16), (0x4000#16, 0x0007#16)])
      (fun t => t.reg 0 == 0x0007#16 && t.cond == 0b001#3) = true := by decide

/-- K7: the pointer word itself is at `KBSR_ADDR`, so its read polls and the data read does not. -/
theorem test_ldi_pointer_polls :
    stepGives ((placed 0xFDFF#16 0xA000#16 [(0x8000#16, 0x0042#16)]).setQueue [0x41#8, 0x42#8])
      (fun t => t.reg 0 == 0x0042#16 && t.mem.read 0xFE02#16 == 0x0041#16 && t.kbdQueue == [0x42#8] &&
        t.cond == 0b001#3) = true := by decide

/-- L3. -/
theorem test_ldr_into_base :
    stepGives ((placed 0x3000#16 0x6240#16 [(0x4000#16, 0x1234#16)]).setReg 1 0x4000#16)
      (fun t => t.reg 1 == 0x1234#16 && t.cond == 0b001#3) = true := by decide

/-- L4. -/
theorem test_ldr_wraps :
    stepGives (placed 0x3000#16 0x603F#16 [(0xFFFF#16, 0x00AA#16)]) (fun t => t.reg 0 == 0x00AA#16) = true := by
  decide

/-- L6. -/
theorem test_lea :
    stepGives (placed 0x7FFF#16 0xE000#16 [])
      (fun t => t.reg 0 == 0x8000#16 && t.cond == 0b100#3 && t.pc == 0x8000#16) = true := by decide

/-- L8. -/
theorem test_st_itself :
    stepGives (((placed 0x3000#16 0x31FF#16 []).setReg 0 0x1234#16).withCond 0b100#3)
      (fun t => t.mem.read 0x3000#16 == 0x1234#16 && t.cond == 0b100#3) = true := by decide

/-- L9. -/
theorem test_sti_through_itself :
    stepGives ((placed 0x3000#16 0xB000#16 [(0x3001#16, 0x3001#16)]).setReg 0 0x00AA#16)
      (fun t => t.mem.read 0x3001#16 == 0x00AA#16) = true := by decide

/-- K8: a store to `KBSR_ADDR` does not poll. -/
theorem test_sti_status :
    stepGives (((placed 0x3000#16 0xB201#16 [(0x3002#16, 0xFE00#16)]).setReg 1 0x1234#16).setQueue [0x41#8])
      (fun t => t.mem.read 0xFE00#16 == 0x1234#16 && t.kbdQueue == [0x41#8]) = true := by decide

/-- L13. -/
theorem test_str_wraps :
    stepGives ((placed 0x3000#16 0x723F#16 []).setReg 1 0x5555#16)
      (fun t => t.mem.read 0xFFFF#16 == 0x5555#16 && t.cond == 0b010#3) = true := by decide

/-- K1, its read alone: no data; the stale status is not returned and KBDR stays. -/
theorem test_poll_empty :
    (memRead (placed 0x3000#16 0xA201#16 [(0xFE00#16, 0x8000#16), (0xFE02#16, 0x0077#16)]) 0xFE00#16).1 = 0x0000#16 ∧
    (memRead (placed 0x3000#16 0xA201#16 [(0xFE00#16, 0x8000#16), (0xFE02#16, 0x0077#16)]) 0xFE00#16).2.mem.read
      0xFE02#16 = 0x0077#16 := by decide

/-- K5: a fetch at `KBSR_ADDR` with a character there reads RTI. -/
theorem test_fetch_polls :
    faultOf (step ((placed 0xFE00#16 0x1234#16 []).setQueue [0x5A#8])) =
      some (.fatal (.illegalOpcode .rti)
        { State.reset with pc := 0xFE01#16, mem := [(0xFE00, 0x8000#16), (0xFE02, 0x005A#16)] }) := by decide

/-- T1. -/
theorem test_getc_zero :
    stepGives (((placed 0x3000#16 0xF020#16 []).setQueue [0x00#8]).withCond 0b001#3)
      (fun t => t.reg 0 == 0x0000#16 && t.cond == 0b010#3 && t.reg 7 == 0x3001#16 && t.console == []) = true := by
  decide

/-- T2b: the state is as it was, so the step is tried again. -/
theorem test_getc_waits :
    nextOf (step (placed 0x3000#16 0xF020#16 [])) = some (placed 0x3000#16 0xF020#16 []) := by decide

/-- T3. -/
theorem test_out :
    stepGives ((placed 0x3000#16 0xF021#16 []).setReg 0 0x1241#16)
      (fun t => t.console == [0x41#8] && t.reg 0 == 0x1241#16 && t.reg 7 == 0x3001#16) = true := by decide

/-- T5. -/
theorem test_puts :
    stepGives ((placed 0x3000#16 0xF022#16 [(0x4000#16, 0x1241#16), (0x4001#16, 0x0100#16)]).setReg 0 0x4000#16)
      (fun t => t.console == [0x41#8, 0x00#8] && t.reg 0 == 0x4000#16) = true := by decide

/-- T16. -/
theorem test_puts_wraps :
    stepGives ((placed 0x3000#16 0xF022#16 [(0xFFFF#16, 0x0041#16), (0x0000#16, 0x0042#16)]).setReg 0 0xFFFF#16)
      (fun t => t.console == [0x41#8, 0x42#8]) = true := by decide

/-- T8. -/
theorem test_putsp :
    stepGives ((placed 0x3000#16 0xF024#16
        [(0x4000#16, 0x6548#16), (0x4001#16, 0x6C6C#16), (0x4002#16, 0x006F#16)]).setReg 0 0x4000#16)
      (fun t => t.console == [0x48#8, 0x65#8, 0x6C#8, 0x6C#8, 0x6F#8]) = true := by decide

/-- T9: `emit_nul`, `skip`, and `refuse`, which is no meaning. -/
theorem test_putsp_zero_low :
    putspBytes .emitNul 0x4100#16 = some [0x00#8, 0x41#8] ∧ putspBytes .skip 0x4100#16 = some [0x41#8] ∧
    putspBytes .refuse 0x4100#16 = none := by decide

/-- T15. -/
theorem test_in :
    stepGives ((placed 0x3000#16 0xF023#16 []).setQueue [0x37#8, 0x71#8])
      (fun t => t.reg 0 == 0x0037#16 && t.cond == 0b001#3 && t.console == [0x37#8] && t.kbdQueue == [0x71#8]) =
      true := by decide

/-- T10. -/
theorem test_halt :
    stepGives ((placed 0x3000#16 0xFF25#16 []).withCond 0b100#3)
      (fun t => t.run == false && t.console == [0x48#8, 0x41#8, 0x4C#8, 0x54#8, 0x0A#8] && t.cond == 0b100#3 &&
        t.reg 7 == 0x3001#16) = true := by decide

/-- T12. -/
theorem test_unknown_vector :
    faultOf (step (placed 0x3000#16 0xF0FF#16 [])) =
      some (.fatal (.unknownTrapVector 0x00FF#16)
        (((placed 0x3000#16 0xF0FF#16 []).setPc 0x3001#16).setReg 7 0x3001#16)) := by decide

/-- T13. -/
theorem test_rti :
    faultOf (step (placed 0x3000#16 0x8ABC#16 [])) =
      some (.fatal (.illegalOpcode .rti) ((placed 0x3000#16 0x8ABC#16 []).setPc 0x3001#16)) := by decide

/-- T14. -/
theorem test_res :
    faultOf (step (placed 0x3000#16 0xDFFF#16 [])) =
      some (.fatal (.illegalOpcode .res) ((placed 0x3000#16 0xDFFF#16 []).setPc 0x3001#16)) := by decide

/-- The image file of E7 is the image its mnemonics stand for. -/
theorem test_image_file :
    Image.ofBytes [0x30#8, 0x00#8, 0x10#8, 0x25#8, 0x12#8, 0x2A#8, 0xF0#8, 0x25#8] =
      some ⟨0x3000#16, [0x1025#16, 0x122A#16, 0xF025#16]⟩ := by decide

/-- E7 and R181: a file is loaded, and the first step runs the word at its origin. -/
theorem test_first_step_after_load :
    ((State.reset.boot [0x30#8, 0x00#8, 0x10#8, 0x25#8]).map
      fun s => stepGives s fun t => t.reg 0 == 0x0005#16 && t.pc == 0x3001#16) = some true := by decide

/-! ### Witnesses: concrete data that meets the hypotheses of each statement -/

theorem witness_DecodeInvertsEncode :
    (Instr.addi 1 2 0xFFF0#16).wellFormed = true ∧ (Instr.trap 0x00FF#16).wellFormed = true ∧
    (Instr.br false true false 0x00FF#16).wellFormed = true := by decide

theorem witness_EncodeRestoresAllButIgnoredBits :
    (∃ dr sr, decode 0x9200#16 = .not dr sr) ∧ ¬ ∃ dr sr, decode 0x46BF#16 = .not dr sr :=
  ⟨⟨1, 0, by decide⟩, by decide⟩

theorem witness_IgnoredBitsHaveNoEffect :
    0x46BF#16 &&& ~~~ (decode 0x46BF#16).ignoredBits = 0x4080#16 &&& ~~~ (decode 0x46BF#16).ignoredBits ∧
    (0x46BF#16 : Word) ≠ 0x4080#16 := by decide

theorem witness_FieldExtensionValues_nonnegative : (5 : Nat) ∈ [5, 6, 9, 11] ∧ (0x0F#5).toNat < 2 ^ (5 - 1) := by
  decide

theorem witness_FieldExtensionValues_negative : (11 : Nat) ∈ [5, 6, 9, 11] ∧ ¬ (0x400#11).toNat < 2 ^ (11 - 1) := by
  decide

theorem witness_SetccFollowsTheWord :
    ((0x8000#16 : Word).getLsbD 15 = true ∧ (0x8000#16 : Word) ≠ 0x0000#16) ∧
    ((0x7FFF#16 : Word).getLsbD 15 = false ∧ (0x7FFF#16 : Word) ≠ 0x0000#16) := by decide

/-- A machine with a character in its queue. -/
def withKey : State := (placed 0x3000#16 0xF020#16 []).setQueue [0x41#8]

theorem witness_MemWriteChangesOneCell : configWf withKey.cfg = true ∧ ¬ noKeyPending withKey := by decide

theorem witness_MemReadPollsOnlyAtKeyboardStatus_plain :
    (0xFDFF#16 : Addr) ≠ State.reset.cfg.kbsrAddr ∧ (0xFE01#16 : Addr) ≠ State.reset.cfg.kbsrAddr := by decide

theorem witness_MemReadPollsOnlyAtKeyboardStatus_empty :
    ∃ v t, configWf State.reset.cfg = true ∧ memRead State.reset State.reset.cfg.kbsrAddr = (v, t) ∧
      noKeyPending State.reset := ⟨_, _, by decide, rfl, by decide⟩

theorem witness_MemReadPollsOnlyAtKeyboardStatus_character :
    ∃ v t c rest, configWf withKey.cfg = true ∧ memRead withKey withKey.cfg.kbsrAddr = (v, t) ∧
      withKey.kbdArrive.kbdQueue = c :: rest := ⟨_, _, 0x41#8, [], by decide, rfl, by decide⟩

theorem witness_KeyboardOperationsTakeTheFirstCharacter :
    (State.kbdPoll State.reset).1 = none ∧ (State.kbdRead withKey).1 = some 0x41#8 := by decide

theorem witness_BranchTakenOnRequestedCondition_taken :
    ∃ z, (z = true ∧ State.reset.cond = 0b010#3) ∧ condOneHot State.reset.cond = true :=
  ⟨true, by decide⟩

theorem witness_BranchTakenOnRequestedCondition_not_taken :
    ¬ ((true = true ∧ State.reset.cond = 0b100#3) ∨ (false = true ∧ State.reset.cond = 0b010#3) ∨
      (true = true ∧ State.reset.cond = 0b001#3)) := by decide

theorem witness_RegisterCallLinksThenReadsTheBase : (6 : Reg) ≠ 7 ∧ (7 : Reg) = 7 := by decide

theorem witness_LoadPcRelative :
    ∃ v u, memRead State.reset (State.reset.pc + 0x00FF#16) = (v, u) ∧
      State.reset.pc + 0x00FF#16 ≠ State.reset.cfg.kbsrAddr := ⟨_, _, rfl, by decide⟩

/-- The state of L-LDI after its fetch. -/
def pointing : State := (placed 0x3001#16 0x0000#16 [(0x3002#16, 0x4000#16), (0x4000#16, 0x0007#16)])

theorem witness_LoadIndirect :
    ∃ p s1 v s2, memRead pointing (pointing.pc + 0x0001#16) = (p, s1) ∧ memRead s1 p = (v, s2) ∧
      pointing.pc + 0x0001#16 ≠ pointing.cfg.kbsrAddr ∧ p ≠ pointing.cfg.kbsrAddr :=
  ⟨_, _, _, _, rfl, rfl, by decide, by decide⟩

theorem witness_LoadBaseOffset :
    ∃ v u, memRead State.reset (State.reset.reg 2 + 0xFFFF#16) = (v, u) ∧
      State.reset.reg 2 + 0xFFFF#16 ≠ State.reset.cfg.kbsrAddr := ⟨_, _, rfl, by decide⟩

theorem witness_StoreIndirect :
    ∃ p s1, memRead pointing (pointing.pc + 0x0001#16) = (p, s1) ∧
      pointing.pc + 0x0001#16 ≠ pointing.cfg.kbsrAddr := ⟨_, _, rfl, by decide⟩

theorem witness_LoadIndirectIsTwoChainedLoads :
    pointing.pc + 0x0001#16 ≠ pointing.cfg.kbsrAddr ∧
    pointing.mem.read (pointing.pc + 0x0001#16) ≠ pointing.cfg.kbsrAddr := by decide

/-- The state of K1 and K2 after its fetch, with a character or with none. -/
def polling (keys : List Byte) : State := (placed 0x3001#16 0x0000#16 [(0x3002#16, 0xFE00#16)]).setQueue keys

theorem witness_LoadOfTheStatusCell_indirect :
    configWf (polling []).cfg = true ∧ (polling []).pc + 0x0001#16 ≠ (polling []).cfg.kbsrAddr ∧
    (polling []).mem.read ((polling []).pc + 0x0001#16) = (polling []).cfg.kbsrAddr ∧ noKeyPending (polling []) := by
  decide

theorem witness_LoadOfTheStatusCell_pcRelative :
    (State.reset.setPc 0xFE01#16).pc + 0xFFFF#16 = (State.reset.setPc 0xFE01#16).cfg.kbsrAddr := by decide

theorem witness_LoadOfTheStatusCell_base :
    ∃ c rest, ((polling [0x41#8]).setReg 2 0xFE01#16).reg 2 + 0xFFFF#16 = (polling [0x41#8]).cfg.kbsrAddr ∧
      ((polling [0x41#8]).setReg 2 0xFE01#16).kbdArrive.kbdQueue = c :: rest := ⟨0x41#8, [], by decide, by decide⟩

theorem witness_StoreIsSeenByTheNextFetch_st :
    ∃ t, storeSource (.st 0 0x0000#16) = some 0 ∧ storeTarget pointing (.st 0 0x0000#16) = some pointing.pc ∧
      exec (.st 0 0x0000#16) pointing = .next t ∧ t.pc ≠ t.cfg.kbsrAddr :=
  ⟨_, rfl, by decide, rfl, by decide⟩

theorem witness_StoreIsSeenByTheNextFetch_sti :
    ∃ t ea, storeSource (.sti 0 0x0001#16) = some 0 ∧ storeTarget pointing (.sti 0 0x0001#16) = some ea ∧
      exec (.sti 0 0x0001#16) pointing = .next t ∧ t.pc ≠ t.cfg.kbsrAddr ∧ ea ≠ pointing.pc ∧
      pointing.pc ≠ pointing.cfg.kbdrAddr :=
  ⟨_, 0x4000#16, rfl, by decide, rfl, by decide, by decide, by decide⟩

theorem witness_StoreIsSeenByTheNextFetch_str :
    ∃ t, storeSource (.str 1 2 0x0005#16) = some 1 ∧ storeTarget pointing (.str 1 2 0x0005#16) = some 0x0005#16 ∧
      exec (.str 1 2 0x0005#16) pointing = .next t ∧ t.pc ≠ t.cfg.kbsrAddr ∧ (0x0005#16 : Addr) ≠ pointing.pc :=
  ⟨_, rfl, by decide, rfl, by decide, by decide⟩

theorem witness_GetcDeliversTheCharacter_and_InEchoesTheCharacter :
    ∃ c rest, configWf withKey.cfg = true ∧ withKey.kbdArrive.kbdQueue = c :: rest :=
  ⟨0x41#8, [], by decide, by decide⟩

theorem witness_OutPutsPutspHalt :
    configWf State.reset.cfg = true ∧ State.reset.kbdSupply = .ended := by decide

/-- A machine with the word of T9 at the address in R0 and `PUTSP_ZERO_LOW` at `refuse`. -/
def withZeroLow : State := (placed 0x3001#16 0x0000#16 [(0x4000#16, 0x4100#16)]).setReg 0 0x4000#16

theorem witness_PutspRunsTheLoop_noMeaning :
    withZeroLow.kbdSupply = .ended ∧
    WalkHasNoMeaning (putspWrites withZeroLow.cfg.putspZeroLow) (withZeroLow.reg 0) withZeroLow.link :=
  ⟨rfl, _, _, .here _ _, by decide, by decide⟩

/-- A machine with the words of T6 at the address in R0. -/
def withString : State :=
  (placed 0x3001#16 0x0000#16 [(0x4000#16, 0x0041#16), (0x4001#16, 0x0042#16)]).setReg 0 0x4000#16

theorem witness_PutsWritesThePlainString :
    configWf withString.cfg = true ∧
    (∀ k, k ≤ 2 → withString.reg 0 + BitVec.ofNat 16 k ≠ withString.cfg.kbsrAddr) ∧
    (∀ k, k < 2 → withString.mem.read (withString.reg 0 + BitVec.ofNat 16 k) ≠ 0x0000#16) ∧
    withString.mem.read (withString.reg 0 + BitVec.ofNat 16 2) = 0x0000#16 := by decide

theorem witness_PutspWritesThePackedString :
    (∀ k, k < 2 → (withString.mem.read (withString.reg 0 + BitVec.ofNat 16 k)).extractLsb' 0 8 ≠ 0x00#8) ∧
    (withString.mem.read (withString.reg 0 + BitVec.ofNat 16 0)).extractLsb' 8 8 = 0x00#8 := by decide

theorem witness_UnknownTrapVectorIsFatal :
    ¬ isKnownVector State.reset 0x001F#16 ∧ ¬ isKnownVector State.reset 0x0026#16 := by decide

/-- A machine at a GETC with no character, whose next keyboard operation finds none and whose one after that finds
one. -/
def waiting : State := { placed 0x3000#16 0xF020#16 [] with kbdArrivals := [[], [0x41#8]] }

theorem witness_ReadTrapWaitsForACharacter :
    waiting.run = true ∧ waiting.routine = none ∧ configWf waiting.cfg = true ∧ decode (memRead waiting waiting.pc).1 = .trap 0x0020#16 ∧
    isReadVector waiting 0x0020#16 ∧ noKeyPending waiting ∧
    noKeyPending (placed 0x3000#16 0xF020#16 []) ∧ (placed 0x3000#16 0xF020#16 []).kbdArrivals = [] ∧
    (placed 0x3000#16 0xF020#16 []).kbdSupply = .ended := by decide

theorem witness_StepRunsTheDecodedInstruction :
    ∃ ir u i, withKey.run = true ∧ withKey.routine = none ∧ memRead withKey withKey.pc = (ir, u) ∧ decode ir = i ∧
      withKey.pc ≠ withKey.cfg.kbsrAddr := ⟨_, _, .trap 0x0020#16, by decide, by decide, rfl, by decide, by decide⟩

theorem witness_OnlyAHaltedMachineTakesNoStep :
    refusalOf (step { withZeroLow with routine := some .putsp }) = some .putspZeroLow ∧
    (State.reset.withRun false).run = false ∧ step (State.reset.withRun false) = .refused .notRunning ∧
    State.reset.run = true := ⟨by decide, rfl, rfl, rfl⟩

theorem not_waits_of_no_trap (s : State) (i : Instr) (h : ∀ v, i ≠ .trap v) : ¬ Waits s i :=
  fun ⟨v, hv, _⟩ => h v hv

theorem witness_PcAfterEveryInstruction :
    (∃ t, exec (.br false true false 0x0002#16) State.reset = .next t) ∧ (∃ t, exec (.jmp 1) State.reset = .next t) ∧
    (∃ t, exec (.jsrr 7) State.reset = .next t) ∧ (∃ t, exec (.jsr 0x0003#16) State.reset = .next t) ∧
    (∃ t, exec (.lea 0 0x0002#16) State.reset = .next t) ∧ ¬ Waits State.reset (.jsrr 7) :=
  ⟨⟨_, rfl⟩, ⟨_, rfl⟩, ⟨_, rfl⟩, ⟨_, rfl⟩, ⟨_, rfl⟩, not_waits_of_no_trap _ _ (by simp)⟩

theorem witness_CondIsWrittenByResultsAndReadByBranches :
    configWf State.reset.cfg = true ∧ (∃ t, exec (.not 1 0) State.reset = .next t ∧ resultReg (.not 1 0) = some 1) ∧
    (∃ t, exec (.jmp 1) State.reset = .next t ∧ resultReg (.jmp 1) = none) ∧
    (∃ u, exec .rti State.reset = .fault (.fatal (.illegalOpcode .rti) u)) :=
  ⟨by decide, ⟨_, rfl, rfl⟩, ⟨_, rfl, rfl⟩, ⟨_, rfl⟩⟩

theorem witness_CondIsWrittenByResultsAndReadByBranches_readTrap :
    (nextOf (exec (.trap 0x0020#16) withKey)).isSome = true ∧ isReadVector withKey 0x0020#16 ∧
    ¬ noKeyPending withKey ∧ (nextOf (exec (.trap 0x0020#16) State.reset)).isSome = true ∧
    noKeyPending State.reset := by decide

theorem witness_RunningFlagIsClearedByTheHaltTrapOnly :
    (nextOf (exec (.trap 0x0025#16) State.reset)).map (·.run) = some false ∧
    (nextOf (step State.reset)).map (·.run) = some true := by decide

theorem witness_EveryStepCompletesOrRaisesAListedCondition :
    (placed 0x3000#16 0x8000#16 []).run = true ∧ (placed 0x3000#16 0x8000#16 []).routine = none ∧
    decode (memRead (placed 0x3000#16 0x8000#16 []) 0x3000#16).1 = .rti ∧
    decode (memRead (placed 0x3000#16 0xD000#16 []) 0x3000#16).1 = .res ∧
    decode (memRead (placed 0x3000#16 0xF026#16 []) 0x3000#16).1 = .trap 0x0026#16 ∧
    ¬ isKnownVector (placed 0x3000#16 0xF026#16 []) 0x0026#16 ∧
    decode (memRead (placed 0x3000#16 0x1025#16 []) 0x3000#16).1 = .addi 0 0 0x0005#16 := by decide

theorem witness_FatalErrorFreezesTheMachine :
    ∃ u, step (placed 0x3000#16 0xF0FF#16 []) = .fault (.fatal (.unknownTrapVector 0x00FF#16) u) ∧
      (placed 0x3000#16 0xF0FF#16 []).pc ≠ (placed 0x3000#16 0xF0FF#16 []).cfg.kbsrAddr :=
  ⟨_, rfl, by decide⟩

theorem witness_StatusReportsHowTheRunGoesOn : State.reset.run = true ∧ configWf State.reset.cfg = true := by decide

theorem witness_ARunHasExactlyOneFate :
    ∃ s : State, s.run = true ∧ s.cfg.putspZeroLow ≠ .refuse :=
  ⟨{ State.reset with cfg := { defaultConfig with putspZeroLow := .skip } }, by decide, by decide⟩

theorem witness_StringRoutineGoesOnInTheNextStep_ends :
    ({ withString with routine := some .puts } : State).run = true ∧
    ({ withString with routine := some .puts } : State).routine = some .puts ∧
    WalkEnds (routineWrites withString.cfg .puts) (withString.reg 0) { withString with routine := some .puts }
      ({ withString with routine := some .puts }.conOut [0x41#8, 0x42#8]) :=
  ⟨rfl, rfl, _, _, .more (by decide) rfl (.more (by decide) rfl (.here _ _)), by decide, by decide⟩

theorem witness_StringRoutineGoesOnInTheNextStep_noMeaning :
    WalkHasNoMeaning (routineWrites withZeroLow.cfg .putsp) (withZeroLow.reg 0)
      { withZeroLow with routine := some .putsp } :=
  ⟨_, _, .here _ _, by decide, by decide⟩

/-- Every cell holds the word of `TRAP 0x22`. -/
def fullMemory : Memory := (List.range' 0 65536).map fun k => (k, 0xF022#16)

theorem lookup_range' (v : Word) (lo n k : Nat) (h : lo ≤ k ∧ k < lo + n) :
    Memory.lookup ((List.range' lo n).map fun j => (j, v)) k = v := by
  induction n generalizing lo with
  | zero => omega
  | succ n ih =>
    rw [List.range'_succ, List.map_cons, Memory.lookup]
    split
    · rfl
    · exact ih (lo + 1) (by omega)

theorem fullMemory_read (a : Addr) : Memory.read fullMemory a = 0xF022#16 :=
  lookup_range' _ _ _ _ ⟨Nat.zero_le _, by have := a.isLt; omega⟩

/-- A machine whose string has no end, with a key at each poll for ever. -/
def hanging : State :=
  { State.reset with mem := fullMemory, kbdSupply := .repeating [[0x41#8]] }

theorem hanging_not_zero (a : Addr) (_ : a ≠ hanging.cfg.kbsrAddr) : hanging.mem.read a ≠ 0x0000#16 := by
  rw [show hanging.mem.read a = 0xF022#16 from fullMemory_read a]; decide

theorem witness_PutsOverFullMemoryWithAKeyAtEachPollHangs :
    hanging.run = true ∧ hanging.routine = none ∧ configWf hanging.cfg = true ∧ hanging.pc ≠ hanging.cfg.kbsrAddr ∧
    decode (hanging.mem.read hanging.pc) = .trap (zext8 hanging.cfg.trapPuts) ∧ (0x41#8 : Byte) ≠ 0x00#8 ∧
    hanging.kbdQueue = [] ∧ hanging.kbdArrivals = [] ∧ hanging.kbdSupply = .repeating [[0x41#8]] ∧
    ∀ a, a ≠ hanging.cfg.kbsrAddr → hanging.mem.read a ≠ 0x0000#16 :=
  ⟨rfl, rfl, (by decide : configWf defaultConfig = true), (by decide : (0x0000#16 : Addr) ≠ 0xFE00#16),
    (congrArg decode (fullMemory_read _)).trans (by decide : decode 0xF022#16 = .trap (zext8 0x22#8)), by decide,
    rfl, rfl, rfl, hanging_not_zero⟩

theorem no_meaning_not_of_puts {c : Config} {a : Addr} {s : State} :
    ¬ WalkHasNoMeaning (routineWrites c .puts) a s := by
  rintro ⟨b, u, -, -, h⟩
  cases h

theorem witness_StringWithoutAnEndIsNoFault :
    (hanging.setRoutine (some .puts)).run = true ∧ (hanging.setRoutine (some .puts)).routine = some .puts ∧
    (∀ t, ¬ WalkEnds (routineWrites hanging.cfg .puts) (hanging.reg 0) (hanging.setRoutine (some .puts)) t) ∧
    ¬ WalkHasNoMeaning (routineWrites hanging.cfg .puts) (hanging.reg 0) (hanging.setRoutine (some .puts)) :=
  ⟨rfl, rfl,
    fun _ => walkEnds_not_of_key_at_each_poll (by decide : (0x41#8 : Byte) ≠ 0x00#8)
      (by decide : (0xFE00#16 : Addr) ≠ 0xFE02#16) rfl rfl rfl hanging_not_zero,
    no_meaning_not_of_puts⟩

theorem witness_StringWithoutAnEndIsNoFault_trap :
    (∀ t, ¬ WalkEnds (routineWrites hanging.cfg .puts) (hanging.reg 0)
      (hanging.setPc (hanging.pc + 1#16)).link t) ∧
    ¬ WalkHasNoMeaning (routineWrites hanging.cfg .puts) (hanging.reg 0) (hanging.setPc (hanging.pc + 1#16)).link :=
  ⟨fun _ => walkEnds_not_of_key_at_each_poll (by decide : (0x41#8 : Byte) ≠ 0x00#8)
      (by decide : (0xFE00#16 : Addr) ≠ 0xFE02#16) rfl rfl rfl hanging_not_zero,
    no_meaning_not_of_puts⟩

/-- A machine whose string has no zero word, with a key at every other poll only. -/
def alternating : State :=
  { State.reset with mem := fullMemory, kbdSupply := .repeating [[0x41#8], []] }

/-- R153: its PUTS ends in the one step of the TRAP, at the poll without a key, which comes in the second round of the
address space. -/
theorem test_puts_ends_in_its_step_at_the_first_poll_without_a_key :
    ∃ t, exec (.trap 0x0022#16) alternating = .next t ∧ t.routine = none := by
  have e : exec (.trap 0x0022#16) alternating = trapPutsRoutine alternating :=
    execTrap_puts (s := alternating) (by decide : configWf defaultConfig = true)
  rw [e, trapPutsRoutine]
  rcases walkString_cases putsBytes (walkBound alternating.link) (alternating.link.reg dataReg) alternating.link
    with ⟨t, w, -⟩ | ⟨t, w, -⟩ | ⟨-, h⟩
  · exact ⟨_, runString_of_walk (r := .puts) w, rfl⟩
  · exact absurd ((keys_of_bound w).2 1) (by decide : ¬ isKey none = true)
  · exact absurd h (no_meaning_not_of_puts (c := defaultConfig))

theorem witness_OnlyAnEndlessLoopOutlastsItsStep : ∃ t, step hanging = .next t ∧ t.routine = some .puts := by
  have decoded : decode (fetch hanging).1 = .trap (zext8 hanging.cfg.trapPuts) := by
    rw [fetch_plain (by decide : (0x0000#16 : Addr) ≠ 0xFE00#16)]
    exact witness_PutsOverFullMemoryWithAKeyAtEachPollHangs.2.2.2.2.1
  rw [step_running rfl rfl, decoded, fetch_plain (by decide : (0x0000#16 : Addr) ≠ 0xFE00#16)]
  have e : exec (.trap (zext8 hanging.cfg.trapPuts)) (hanging.setPc (hanging.pc + 1#16)) =
      runString .puts (hanging.setPc (hanging.pc + 1#16)).link :=
    execTrap_puts (s := hanging.setPc (hanging.pc + 1#16)) (by decide : configWf defaultConfig = true)
  rw [e]
  rcases runString_cases .puts (hanging.setPc (hanging.pc + 1#16)).link with ⟨t, -, -, w⟩ | ⟨t, e, -⟩ | ⟨-, h, -⟩
  · exact absurd w (walkEnds_not_of_key_at_each_poll (by decide : (0x41#8 : Byte) ≠ 0x00#8)
      (by decide : (0xFE00#16 : Addr) ≠ 0xFE02#16) rfl rfl rfl hanging_not_zero)
  · exact ⟨_, e, rfl⟩
  · cases h

theorem witness_PutsRunsTheLoop_never_ends :
    configWf hanging.cfg = true ∧ ∀ u, ¬ WalkEnds putsWrites (hanging.reg 0) hanging.link u :=
  ⟨(by decide : configWf defaultConfig = true),
    fun _ => walkEnds_not_of_key_at_each_poll (by decide : (0x41#8 : Byte) ≠ 0x00#8)
      (by decide : (0xFE00#16 : Addr) ≠ 0xFE02#16) rfl rfl rfl hanging_not_zero⟩

theorem witness_PutsRunsTheLoop_ends :
    ∃ u, configWf withString.cfg = true ∧ WalkEnds putsWrites (withString.reg 0) withString.link u :=
  ⟨_, by decide, _, _, .more (by decide) rfl (.more (by decide) rfl (.here _ _)), by decide, rfl⟩

theorem witness_PutspRunsTheLoop_ends :
    ∃ u, configWf withString.cfg = true ∧
      WalkEnds (putspWrites withString.cfg.putspZeroLow) (withString.reg 0) withString.link u :=
  ⟨_, by decide, _, _, .more (by decide) rfl (.more (by decide) rfl (.here _ _)), by decide, rfl⟩

/-- The hanging machine with `PUTSP_ZERO_LOW` at `skip`. -/
def hangingSkip : State := { hanging with cfg := { defaultConfig with putspZeroLow := .skip } }

theorem witness_PutspRunsTheLoop_never_ends :
    configWf hangingSkip.cfg = true ∧
    (∀ u, ¬ WalkEnds (putspWrites hangingSkip.cfg.putspZeroLow) (hangingSkip.reg 0) hangingSkip.link u) ∧
    ¬ WalkHasNoMeaning (putspWrites hangingSkip.cfg.putspZeroLow) (hangingSkip.reg 0) hangingSkip.link := by
  refine ⟨(by decide : configWf { defaultConfig with putspZeroLow := .skip } = true),
    fun _ => walkEnds_not_of_key_at_each_poll (by decide : (0x41#8 : Byte) ≠ 0x00#8)
      (by decide : (0xFE00#16 : Addr) ≠ 0xFE02#16) rfl rfl rfl hanging_not_zero, ?_⟩
  rintro ⟨b, u, -, -, h⟩
  rw [show hangingSkip.cfg.putspZeroLow = .skip from rfl] at h
  unfold putspWrites at h
  rw [Option.map_eq_none_iff] at h
  split at h <;> cases h

theorem witness_steps :
    ∃ t, step State.reset = .next t ∧ State.reset.routine = none ∧ ∀ vect, decode (memRead State.reset State.reset.pc).1 ≠ .trap vect :=
  ⟨_, rfl, rfl, fun v => by
    rw [show decode (memRead State.reset State.reset.pc).1 = .br false false false 0x0000#16 by decide]; simp⟩

theorem witness_RegistersChangeOnlyWhereListed :
    configWf State.reset.cfg = true ∧ (∃ t, exec (.addr 1 2 3) State.reset = .next t) ∧
    (nextOf (exec (.trap 0x0020#16) State.reset)).isSome = true ∧ Waits State.reset (.trap 0x0020#16) :=
  ⟨by decide, ⟨_, rfl⟩, by decide, ⟨_, rfl, by decide, by decide⟩⟩

theorem witness_MemoryChangesOnlyByStoresAndPolls_keyboard :
    ∃ t, exec (.st 1 0x0002#16) State.reset = .next t ∧
      storeTarget State.reset (.st 1 0x0002#16) ≠ some State.reset.cfg.kbsrAddr ∧
      ¬ readsStatus State.reset (.st 1 0x0002#16) := ⟨_, rfl, by decide, id⟩

theorem witness_MemoryChangesOnlyByStoresAndPolls :
    ∃ t, exec (.st 1 0x0002#16) State.reset = .next t ∧
      storeTarget State.reset (.st 1 0x0002#16) ≠ some 0x0003#16 ∧ (0x0003#16 : Addr) ≠ State.reset.cfg.kbsrAddr ∧
      (0x0003#16 : Addr) ≠ State.reset.cfg.kbdrAddr := ⟨_, rfl, by decide, by decide, by decide⟩

theorem witness_StepKeepsTheInvariant :
    ∃ t, step State.reset = .next t ∧ State.reset.Inv :=
  ⟨_, rfl, by decide, by decide, by decide⟩

theorem witness_LoadedMachineKeepsTheInvariant :
    configWf defaultConfig = true ∧ condOneHot 0b100#3 = true ∧ Memory.wf [(0x0000, 0x1234#16)] = true ∧
    ∃ t, Reaches ((State.construct defaultConfig 0b100#3 [(0x0000, 0x1234#16)] [] [] (.free 0)).load ⟨0x3000#16, [0x1025#16]⟩) t :=
  ⟨by decide, by decide, by decide, _, .refl _⟩

theorem witness_LoadPlacesTheImage :
    Image.wf ⟨0xFFFE#16, [0x1025#16, 0xF025#16]⟩ = true ∧
    ([0x1025#16, 0xF025#16] : List Word)[1]? = some 0xF025#16 ∧
    (∀ k, k < 2 → (0x0000#16 : Addr) ≠ 0xFFFE#16 + BitVec.ofNat 16 k) ∧
    ([0x1025#16, 0xF025#16] : List Word)[0]? = some 0x1025#16 ∧ (0xFFFE#16 : Addr) ≠ State.reset.cfg.kbsrAddr ∧
    State.reset.run = true ∧ State.reset.routine = none := by decide

theorem witness_MalformedImagesAreRefused :
    Image.ofBytes [0x30#8] = none ∧ (Image.ofBytes [0xFF#8, 0xFF#8, 0x12#8, 0x34#8]).isSome = true ∧
    Image.ofBytes [0xFF#8, 0xFF#8, 0x12#8, 0x34#8, 0x56#8, 0x78#8] = none := by decide

end Sys2Proof.Tests
end

section
/-! PROOF. The field extensions of R13 as numbers and bit by bit, for every field no wider than a word. -/

namespace Sys2Proof

/-- R13's arithmetic reading of `sext_w`: the top bit is set exactly when `2^(w-1) ≤ f`. -/
theorem sext_toNat {w : Nat} (hw : w ≤ 16) (f : BitVec w) :
    (sext f).toNat = if f.toNat < 2 ^ (w - 1) then f.toNat else f.toNat + 2 ^ 16 - 2 ^ w := by
  have fits : 2 ^ w ≤ 2 ^ 16 := Nat.pow_le_pow_right (by decide) hw
  rw [sext, BitVec.toNat_signExtend, BitVec.toNat_setWidth_of_le hw, BitVec.msb_eq_decide]
  by_cases nonnegative : f.toNat < 2 ^ (w - 1)
  · simp [nonnegative]
  · rw [if_pos (decide_eq_true (Nat.le_of_not_lt nonnegative)), if_neg nonnegative, Nat.add_sub_assoc fits]

theorem sext_getLsbD {w i : Nat} (hi : i < 16) (f : BitVec w) :
    (sext f).getLsbD i = if i < w then f.getLsbD i else f.getLsbD (w - 1) := by
  rw [sext, BitVec.getLsbD_signExtend, BitVec.msb_eq_getLsbD_last, decide_eq_true hi, Bool.true_and]

@[simp] theorem zext8_toNat (f : Byte) : (zext8 f).toNat = f.toNat :=
  BitVec.toNat_setWidth_of_le (by decide)

/-- Settles O6: the four widths of R13 are at most 16, so the extension lemmas apply to each. -/
theorem fieldExtensionValues : Obligations.FieldExtensionValues := by
  refine ⟨fun w f hw => ?_, zext8_toNat⟩
  have narrow : w ≤ 16 := (by decide : ∀ n ∈ [5, 6, 9, 11], n ≤ 16) w hw
  exact ⟨sext_toNat narrow f, fun _ hi => sext_getLsbD hi f⟩

end Sys2Proof
end

section
/-! PROOF. COND after `setcc` (R27), and that `setcc` touches nothing else. -/

namespace Sys2Proof.Machine

/-- The three values of `setcc`, each with the words that give it (R27). -/
theorem condOf_cases (v : Word) :
    (v = 0x0000#16 ∧ condOf v = 0b010#3) ∨
    (v ≠ 0x0000#16 ∧ v.getLsbD 15 = true ∧ condOf v = 0b100#3) ∨
    (v ≠ 0x0000#16 ∧ v.getLsbD 15 = false ∧ condOf v = 0b001#3) := by
  by_cases zero : v = 0x0000#16
  · exact .inl ⟨zero, if_pos zero⟩
  cases sign : v.getLsbD 15 with
  | true => exact .inr (.inl ⟨zero, rfl, by rw [condOf, if_neg zero, if_pos sign]⟩)
  | false => exact .inr (.inr ⟨zero, rfl, by rw [condOf, if_neg zero, if_neg (by rw [sign]; decide)]⟩)

theorem condOf_eq_zero_iff (v : Word) : condOf v = 0b010#3 ↔ v = 0x0000#16 := by
  rcases condOf_cases v with ⟨zero, e⟩ | ⟨nonzero, -, e⟩ | ⟨nonzero, -, e⟩
  · exact iff_of_true e zero
  · exact iff_of_false (by simp [e]) nonzero
  · exact iff_of_false (by simp [e]) nonzero

theorem condOf_eq_negative_iff (v : Word) : condOf v = 0b100#3 ↔ v.getLsbD 15 = true ∧ v ≠ 0x0000#16 := by
  rcases condOf_cases v with ⟨zero, e⟩ | ⟨nonzero, sign, e⟩ | ⟨-, sign, e⟩
  · exact iff_of_false (by simp [e]) fun h => h.2 zero
  · exact iff_of_true e ⟨sign, nonzero⟩
  · exact iff_of_false (by simp [e]) fun h => Bool.false_ne_true (sign.symm.trans h.1)

theorem condOf_eq_positive_iff (v : Word) : condOf v = 0b001#3 ↔ v.getLsbD 15 = false ∧ v ≠ 0x0000#16 := by
  rcases condOf_cases v with ⟨zero, e⟩ | ⟨-, sign, e⟩ | ⟨nonzero, sign, e⟩
  · exact iff_of_false (by simp [e]) fun h => h.2 zero
  · exact iff_of_false (by simp [e]) fun h => Bool.false_ne_true (h.1.symm.trans sign)
  · exact iff_of_true e ⟨sign, nonzero⟩

/-- Settles O7: COND is `condOf` of the word, and every other field of the state is the one before. -/
theorem setccFollowsTheWord : Obligations.SetccFollowsTheWord := fun _ v =>
  ⟨condOf_eq_zero_iff v, condOf_eq_negative_iff v, condOf_eq_positive_iff v,
    fun _ _ => rfl, rfl, fun _ => rfl, ⟨rfl, rfl, rfl⟩, ⟨rfl, rfl, rfl⟩, rfl⟩

end Sys2Proof.Machine
end

section
/-! PROOF. The running flag (R29). An instruction other than the halt trap commutes with setting the flag, so it neither
reads nor writes it; the halt trap clears it whatever it was. -/

namespace Sys2Proof.Machine

/-! ### Outcomes -/

/-- A function of states over the state an outcome holds: the next one, or the one a fatal error leaves. -/
def mapOutcome (f : State → State) :
    Host.Outcome State Fault Refusal → Host.Outcome State Fault Refusal
  | .next t => .next (f t)
  | .fault (.fatal reason u) => .fault (.fatal reason (f u))
  | .refused r => .refused r

/-- Where `f` does not look at the routine, the outcome of a walk over which `f` is mapped is the mapped outcome. -/
theorem Walk.outcome_map {f : State → State} (hf : ∀ s r, f (s.setRoutine r) = (f s).setRoutine r)
    (r : StringRoutine) (w : Walk) : (w.map f).outcome r = mapOutcome f (w.outcome r) := by
  cases w with
  | ended t => exact congrArg Host.Outcome.next (hf t none).symm
  | going t => exact congrArg Host.Outcome.next (hf t (some r)).symm
  | noMeaning => rfl

/-! ### The operations with another running flag -/

@[simp] theorem withRun_cond (s : State) (b : Bool) : (s.withRun b).cond = s.cond := rfl
@[simp] theorem withRun_run (s : State) (b : Bool) : (s.withRun b).run = b := rfl

/-- Setting the flag to what it is changes nothing. -/
@[simp] theorem withRun_self (s : State) : s.withRun s.run = s := rfl

theorem memRead_withRun (s : State) (b : Bool) (a : Addr) :
    memRead (s.withRun b) a = ((memRead s a).1, (memRead s a).2.withRun b) := by
  simp [memRead, afterRead_withRun]

theorem eaIndirect_withRun (s : State) (b : Bool) (off : Word) :
    eaIndirect (s.withRun b) off = ((eaIndirect s off).1, (eaIndirect s off).2.withRun b) :=
  memRead_withRun s b (eaPcRel s off)

theorem loadFrom_withRun (dr : Reg) (ea : Addr) (s : State) (b : Bool) :
    loadFrom dr ea (s.withRun b) = (loadFrom dr ea s).withRun b := by
  rw [loadFrom, memRead_withRun]
  rfl

theorem trapGetcRoutine_withRun (s : State) (b : Bool) :
    trapGetcRoutine (s.withRun b) = mapOutcome (·.withRun b) (trapGetcRoutine s) := by
  unfold trapGetcRoutine
  rw [kbdRead_eq_kbdPoll, kbdRead_eq_kbdPoll, kbdPoll_withRun]
  rcases s.kbdPoll with ⟨_ | c, t⟩ <;> rfl

theorem trapInRoutine_withRun (s : State) (b : Bool) :
    trapInRoutine (s.withRun b) = mapOutcome (·.withRun b) (trapInRoutine s) := by
  unfold trapInRoutine
  rw [kbdRead_eq_kbdPoll, kbdRead_eq_kbdPoll, kbdPoll_withRun]
  rcases s.kbdPoll with ⟨_ | c, t⟩ <;> rfl

theorem runString_withRun (r : StringRoutine) (s : State) (b : Bool) :
    runString r (s.withRun b) = mapOutcome (·.withRun b) (runString r s) := by
  have walk := walkString_withRun (stringBytes s.cfg r) (walkBound s) (s.reg dataReg) s b
  rw [runString_of_walk (s := s.withRun b) walk, runString]
  exact Walk.outcome_map (fun _ _ => rfl) r _

/-- The flag is cleared whatever it was (R137). -/
theorem trapHaltRoutine_withRun (s : State) (b : Bool) : trapHaltRoutine (s.withRun b) = trapHaltRoutine s := rfl

/-- TRAP goes to the halt routine, or commutes with setting the flag. -/
theorem execTrap_withRun (vect : Word) (s : State) (b : Bool) :
    (vect = 0x0025#16 ∧ execTrap vect s = trapHaltRoutine s ∧
      execTrap vect (s.withRun b) = trapHaltRoutine s) ∨
    execTrap vect (s.withRun b) = mapOutcome (·.withRun b) (execTrap vect s) := by
  unfold execTrap
  rw [withRun_cfg]
  split
  · exact .inr (trapGetcRoutine_withRun s b)
  split
  · exact .inr rfl
  split
  · exact .inr (runString_withRun .puts s.link b)
  split
  · exact .inr (trapInRoutine_withRun s b)
  split
  · exact .inr (runString_withRun .putsp s.link b)
  split
  · next halt => exact .inl ⟨halt, rfl, trapHaltRoutine_withRun s b⟩
  · exact .inr rfl

/-- The running flag in an instruction: it goes to the halt routine, or commutes with setting the flag. -/
theorem exec_withRun (i : Instr) (s : State) (b : Bool) :
    (i = .trap 0x0025#16 ∧ exec i s = trapHaltRoutine s ∧ exec i (s.withRun b) = trapHaltRoutine s) ∨
    exec i (s.withRun b) = mapOutcome (·.withRun b) (exec i s) := by
  cases i with
  | br n z p off =>
    right
    show execBr n z p off (s.withRun b) = mapOutcome _ (execBr n z p off s)
    unfold execBr
    rw [withRun_cond]
    split <;> rfl
  | ld dr off => exact .inr (congrArg Host.Outcome.next (loadFrom_withRun dr (eaPcRel s off) s b))
  | ldr dr baseR off => exact .inr (congrArg Host.Outcome.next (loadFrom_withRun dr (eaBase s baseR off) s b))
  | ldi dr off =>
    right
    show execLdi dr off (s.withRun b) = _
    rw [execLdi, eaIndirect_withRun, loadFrom_withRun]
    rfl
  | sti sr off =>
    right
    show execSti sr off (s.withRun b) = _
    rw [execSti, eaIndirect_withRun]
    rfl
  | trap vect =>
    rcases execTrap_withRun vect s b with ⟨halt, e, e'⟩ | e
    · exact .inl ⟨congrArg Instr.trap halt, e, e'⟩
    · exact .inr e
  | addr | addi | andr | andi | not | lea | st | str | jmp | jsr | jsrr | rti | res => exact .inr rfl

/-- Any instruction but the halt trap leaves the flag: setting it to what it is changes neither the state before nor,
by `exec_withRun`, the state after. -/
theorem exec_keeps_run {i : Instr} (not_halt : i ≠ .trap 0x0025#16) {s t : State} (h : exec i s = .next t) :
    t.run = s.run := by
  rcases exec_withRun i s s.run with ⟨halt, -⟩ | e
  · exact absurd halt not_halt
  · rw [withRun_self, h] at e
    have same : t = t.withRun s.run := Host.Outcome.next.inj e
    rw [same, withRun_run]

theorem exec_fault_withRun {i : Instr} {s u : State} {reason : FatalReason} (b : Bool)
    (h : exec i s = .fault (.fatal reason u)) :
    exec i (s.withRun b) = .fault (.fatal reason (u.withRun b)) := by
  rcases exec_withRun i s b with ⟨-, e, -⟩ | e
  · exact nomatch h.symm.trans e
  · rw [e, h]; rfl

/-- A fatal error leaves the flag (R161). -/
theorem exec_fault_keeps_run {i : Instr} {s u : State} {reason : FatalReason}
    (h : exec i s = .fault (.fatal reason u)) : u.run = s.run := by
  have same := exec_fault_withRun s.run h
  rw [withRun_self, h] at same
  injection same with same
  injection same with _ same
  rw [same, withRun_run]

theorem exec_next_withRun {i : Instr} {s t : State} (b : Bool) (h : exec i s = .next t) :
    ∃ b', exec i (s.withRun b) = .next (t.withRun b') := by
  rcases exec_withRun i s b with ⟨-, e, e'⟩ | e
  · exact ⟨t.run, by rw [e', ← e, h, withRun_self]⟩
  · exact ⟨b, by rw [e, h]; rfl⟩

theorem exec_refused_withRun {i : Instr} {s : State} {r : Refusal} (b : Bool) (h : exec i s = .refused r) :
    exec i (s.withRun b) = .refused r := by
  rcases exec_withRun i s b with ⟨-, e, -⟩ | e
  · exact nomatch h.symm.trans e
  · rw [e, h]; rfl

/-- The halt trap clears the flag; `configWf` keeps the other five vectors away from 0x25 (R8, R137). -/
theorem exec_halt_clears_run {s t : State} (wf : configWf s.cfg = true)
    (h : exec (.trap 0x0025#16) s = .next t) : t.run = false := by
  have halt : exec (.trap 0x0025#16) s = trapHaltRoutine s := execTrap_halt wf
  cases h.symm.trans halt
  rfl

theorem run_of_step_next {s t : State} (h : step s = .next t) : s.run = true := by
  by_contra stopped
  rw [step_stopped (Bool.eq_false_of_not_eq_true stopped)] at h
  cases h

/-- Settles O41: `exec_withRun` says how an instruction and the flag meet, `configWf` which vector is the halt trap's, and
a machine with the flag clear takes no step. -/
theorem runningFlagIsClearedByTheHaltTrapOnly : Obligations.RunningFlagIsClearedByTheHaltTrapOnly := by
  refine ⟨rfl, fun i s t h wf => ?_, fun _ _ => run_of_step_next, fun _ _ _ b h => exec_next_withRun b h,
    fun _ _ _ _ b h => ⟨exec_fault_keeps_run h, exec_fault_withRun b h⟩, fun _ _ _ b h => exec_refused_withRun b h⟩
  by_cases halt : i = .trap 0x0025#16
  · subst halt
    rw [if_pos rfl]
    exact exec_halt_clears_run wf h
  · rw [if_neg halt]
    exact exec_keeps_run halt h

end Sys2Proof.Machine
end

section
/-! PROOF. `MemWrite` (R43): a store and nothing else. What a read of `KBSR_ADDR` leaves in the two keyboard registers is
laid down by the characters waiting (R42), and a store leaves those. -/

namespace Sys2Proof.Machine

/-! ### The keyboard registers after a read of `KBSR_ADDR` -/

theorem pollKeyboard_mem_of_empty {s : State} (empty : s.kbdArrive.kbdQueue = []) :
    (pollKeyboard s).mem = s.mem.write s.cfg.kbsrAddr 0x0000#16 := by
  rcases pollKeyboard_cases s with ⟨-, e⟩ | ⟨_, _, key, -⟩
  · simp [e]
  · exact nomatch empty.symm.trans key

theorem pollKeyboard_mem_of_key {s : State} {c : Byte} {rest : List Byte} (key : s.kbdArrive.kbdQueue = c :: rest) :
    (pollKeyboard s).mem = (s.mem.write s.cfg.kbsrAddr 0x8000#16).write s.cfg.kbdrAddr (zext8 c) := by
  rcases pollKeyboard_cases s with ⟨empty, -⟩ | ⟨_, _, key', e⟩
  · exact nomatch empty.symm.trans key
  · cases key.symm.trans key'
    simp [e]

theorem memRead_status_of_empty {s : State} (empty : s.kbdArrive.kbdQueue = []) :
    (memRead s s.cfg.kbsrAddr).1 = 0x0000#16 := by
  simp [afterRead_status, pollKeyboard_mem_of_empty empty]

theorem memRead_status_of_key {s : State} (apart : s.cfg.kbsrAddr ≠ s.cfg.kbdrAddr) {c : Byte} {rest : List Byte}
    (key : s.kbdArrive.kbdQueue = c :: rest) : (memRead s s.cfg.kbsrAddr).1 = 0x8000#16 := by
  simp [afterRead_status, pollKeyboard_mem_of_key key, apart]

theorem memRead_status_data_of_key {s : State} {c : Byte} {rest : List Byte} (key : s.kbdArrive.kbdQueue = c :: rest) :
    (memRead s s.cfg.kbsrAddr).2.mem.read s.cfg.kbdrAddr = zext8 c := by
  simp [afterRead_status, pollKeyboard_mem_of_key key]

/-! ### The next status read does not see a store -/

/-- The characters that the next keyboard operation finds waiting are those without the store. -/
theorem memWrite_kbdArrive_kbdQueue (s : State) (a : Addr) (v : Word) :
    (memWrite s a v).kbdArrive.kbdQueue = s.kbdArrive.kbdQueue := rfl

theorem memRead_status_memWrite {s : State} (apart : s.cfg.kbsrAddr ≠ s.cfg.kbdrAddr) (a : Addr) (v : Word) :
    (memRead (memWrite s a v) s.cfg.kbsrAddr).1 = (memRead s s.cfg.kbsrAddr).1 := by
  have same := memWrite_kbdArrive_kbdQueue s a v
  cases queue : s.kbdArrive.kbdQueue with
  | nil => exact (memRead_status_of_empty (same.trans queue)).trans (memRead_status_of_empty queue).symm
  | cons c rest =>
    exact (memRead_status_of_key (s := memWrite s a v) apart (same.trans queue)).trans
      (memRead_status_of_key apart queue).symm

theorem memRead_status_data_memWrite {s : State} (pending : ¬ noKeyPending s) (a : Addr) (v : Word) :
    (memRead (memWrite s a v) s.cfg.kbsrAddr).2.mem.read s.cfg.kbdrAddr =
      (memRead s s.cfg.kbsrAddr).2.mem.read s.cfg.kbdrAddr := by
  obtain ⟨c, rest, queue⟩ := List.exists_cons_of_ne_nil pending
  have same := memWrite_kbdArrive_kbdQueue s a v
  exact (memRead_status_data_of_key (same.trans queue)).trans (memRead_status_data_of_key queue).symm

/-- Settles O8: the memory laws give the cells, every other field is the one before, and the next status read depends on
the characters waiting, which a store leaves. -/
theorem memWriteChangesOneCell : Obligations.MemWriteChangesOneCell := fun s a v =>
  ⟨by simp, fun b other => by simp [other], ⟨fun _ _ => rfl, rfl, rfl⟩, ⟨rfl, rfl, rfl⟩, ⟨⟨rfl, rfl, rfl⟩, rfl⟩,
    fun wf => ⟨memRead_status_memWrite (configWf_addr wf) a v, fun pending => memRead_status_data_memWrite pending a v⟩⟩

end Sys2Proof.Machine
end

section
/-! PROOF. The operate instructions (R100). Each ends in `writeResult` of its word on the state it ran in, so the core and
the frame are said once for `writeResult`. -/

namespace Sys2Proof.Machine

theorem writeResult_resultWritten (s : State) (dr : Reg) (v : Word) : ResultWritten dr v s (s.writeResult dr v) :=
  ⟨s.writeResult_reg_self dr v, rfl, fun _ other => s.writeResult_reg_ne v (List.ne_of_not_mem_cons other), rfl⟩

/-- An instruction that ends in `writeResult` on the state it ran in completes with its result in the register and COND,
and leaves memory, keyboard, console and mode. -/
theorem exec_writeResult_frame {i : Instr} {s : State} {dr : Reg} {v : Word}
    (ends : exec i s = .next (s.writeResult dr v)) :
    ∃ t, exec i s = .next t ∧ ResultWritten dr v s t ∧ SameMemory s t ∧ SameKeyboard s t ∧ SameControl s t :=
  ⟨_, ends, writeResult_resultWritten s dr v, fun _ => rfl, ⟨rfl, rfl, rfl⟩, ⟨rfl, rfl, rfl⟩, rfl⟩

/-- NOT's word as a difference from 0xFFFF (R105). -/
theorem exec_not_eq (dr sr : Reg) (s : State) :
    exec (.not dr sr) s = .next (s.writeResult dr (0xFFFF#16 - s.reg sr)) := by
  have complement : 0xFFFF#16 - s.reg sr = ~~~ s.reg sr := BitVec.allOnes_sub_eq_not (s.reg sr)
  rw [complement]
  rfl

/-- Settles O11: ADDR, ADDI, ANDR and ANDI end in `writeResult` of the stated word by definition, NOT by `exec_not_eq`. -/
theorem operateInstructionsResultAndFrame : Obligations.OperateInstructionsResultAndFrame := fun s dr sr1 _ _ =>
  ⟨exec_writeResult_frame rfl, exec_writeResult_frame rfl, exec_writeResult_frame rfl, exec_writeResult_frame rfl,
    exec_writeResult_frame (exec_not_eq dr sr1 s)⟩

end Sys2Proof.Machine
end

section
/-! PROOF. The step of a running machine in no string routine: `fetch`, then `exec` of the decoded word (R151). -/

namespace Sys2Proof.Machine

/-- The fetch in terms of `MemRead`: the word read at the old `pc`, and the state it left with `pc` incremented. -/
theorem fetch_of_memRead {s u : State} {ir : Word} (read : memRead s s.pc = (ir, u)) :
    fetch s = (ir, u.setPc (s.pc + 1#16)) := by
  rw [fetch, read]

theorem step_of_memRead {s u : State} {ir : Word} (running : s.run = true) (idle : s.routine = none)
    (read : memRead s s.pc = (ir, u)) : step s = exec (decode ir) (u.setPc (s.pc + 1#16)) := by
  rw [step_running running idle, fetch_of_memRead read]

/-- Settles O37: the step runs what `MemRead` answers, and away from `KBSR_ADDR` `fetch_plain` gives both halves of the
fetch without the poll. -/
theorem stepRunsTheDecodedInstruction : Obligations.StepRunsTheDecodedInstruction := by
  rintro s u ir i running idle read rfl
  have runs := step_of_memRead running idle read
  refine ⟨runs, fun plain => ?_⟩
  obtain ⟨word, state⟩ := Prod.mk.inj ((fetch_of_memRead read).symm.trans (fetch_plain plain))
  exact ⟨word, runs.trans (congrArg (exec (decode ir)) state)⟩

end Sys2Proof.Machine
end

section
/-! PROOF. The loader (R182, R183, R185): reads after `writeBlock`, the state it leaves, and the file format it takes. -/

namespace Sys2Proof.Machine

/-! ### Blocks of cells -/

theorem add_ofNat_succ (a : Addr) (k : Nat) : a + BitVec.ofNat 16 (k + 1) = (a + 1#16) + BitVec.ofNat 16 k := by
  rw [BitVec.add_assoc, Nat.add_comm k 1, BitVec.ofNat_add]

/-- An address does not come again within one round of the address space. -/
theorem ne_add_one_add_ofNat (a : Addr) {k : Nat} (h : k + 1 < 65536) : a ≠ (a + 1#16) + BitVec.ofNat 16 k := by
  bv_omega

theorem read_writeBlock_outside {b : Addr} (m : Memory) (a : Addr) (ws : List Word)
    (outside : ∀ k, k < ws.length → b ≠ a + BitVec.ofNat 16 k) : (writeBlock m a ws).read b = m.read b := by
  induction ws generalizing m a with
  | nil => rfl
  | cons w ws ih =>
    have first : b ≠ a := by simpa using outside 0 (by simp)
    have later : ∀ k, k < ws.length → b ≠ (a + 1#16) + BitVec.ofNat 16 k := fun k hk =>
      add_ofNat_succ a k ▸ outside (k + 1) (by simpa using hk)
    rw [writeBlock, ih _ _ later, Memory.read_write_ne m w first]

/-- A block no longer than the address space overwrites none of its own words. -/
theorem read_writeBlock_inside (m : Memory) (a : Addr) {ws : List Word} (fits : ws.length ≤ 65536) {k : Nat} {w : Word}
    (word : ws[k]? = some w) : (writeBlock m a ws).read (a + BitVec.ofNat 16 k) = w := by
  induction ws generalizing m a k with
  | nil => cases word
  | cons v ws ih =>
    rw [List.length_cons] at fits
    rw [writeBlock]
    cases k with
    | zero =>
      obtain rfl : v = w := by simpa using word
      rw [BitVec.add_zero,
        read_writeBlock_outside _ _ ws fun k hk => ne_add_one_add_ofNat a (by omega), Memory.read_write_self]
    | succ k =>
      rw [add_ofNat_succ a k]
      exact ih _ _ (by omega) word

/-! ### The state after the load -/

@[simp] theorem State.load_pc (s : State) (img : Image) : (s.load img).pc = img.origin := rfl

theorem Image.length_le_of_wf {img : Image} (wf : img.wf = true) : img.payload.length ≤ 65536 :=
  (of_decide_eq_true wf).trans (Nat.sub_le _ _)

theorem State.load_mem_read {img : Image} (wf : img.wf = true) (s : State) {k : Nat} {w : Word}
    (word : img.payload[k]? = some w) : (s.load img).mem.read (img.origin + BitVec.ofNat 16 k) = w :=
  read_writeBlock_inside _ _ (Image.length_le_of_wf wf) word

theorem step_load {s : State} {img : Image} {w : Word} (wf : img.wf = true) (first : img.payload[0]? = some w)
    (plain : img.origin ≠ s.cfg.kbsrAddr) (running : s.run = true) (idle : s.routine = none) :
    step (s.load img) = exec (decode w) ((s.load img).setPc (img.origin + 1#16)) := by
  have read : (s.load img).mem.read img.origin = w := by simpa using s.load_mem_read wf first
  rw [step_running (s := s.load img) running idle, fetch_plain (s := s.load img) plain, State.load_pc, read]

/-- Settles O57: the block laws give the cells, every field but memory and `pc` is the one before, and the first step
fetches the first word of the block. -/
theorem loadPlacesTheImage : Obligations.LoadPlacesTheImage := fun s _ wf =>
  ⟨rfl, fun _ _ => s.load_mem_read wf, fun _ => read_writeBlock_outside _ _ _, fun _ _ => rfl, rfl, ⟨rfl, rfl, rfl⟩,
    ⟨⟨rfl, rfl, rfl⟩, rfl⟩, fun _ => step_load wf⟩

/-! ### Image files -/

/-- A word in a file, high byte first (R182). -/
def bytesOfWord (w : Word) : List Byte :=
  [w.extractLsb' 8 8, w.extractLsb' 0 8]

theorem highByte_append_lowByte (w : Word) : w.extractLsb' 8 8 ++ w.extractLsb' 0 8 = w :=
  (BitVec.extractLsb'_append_extractLsb'_eq_extractLsb' rfl).trans BitVec.extractLsb'_eq_self

theorem wordsOfBytes_flatMap_bytesOfWord (ws : List Word) : wordsOfBytes (ws.flatMap bytesOfWord) = some ws := by
  induction ws with
  | nil => rfl
  | cons w ws ih =>
    rw [List.flatMap_cons, bytesOfWord, List.cons_append, List.cons_append, List.nil_append, wordsOfBytes, ih,
      highByte_append_lowByte, Option.map_some]

theorem Image.ofBytes_of_words {file : List Byte} {img : Image}
    (words : wordsOfBytes file = some (img.origin :: img.payload)) (wf : img.wf = true) :
    Image.ofBytes file = some img := by
  rw [Image.ofBytes, words]
  exact if_pos wf

theorem State.boot_of_ofBytes {file : List Byte} {img : Image} (read : Image.ofBytes file = some img) (s : State) :
    s.boot file = some (s.load img) := by
  rw [State.boot, read, Option.map_some]

theorem Image.wf_of_no_payload (origin : Addr) : Image.wf ⟨origin, []⟩ = true :=
  decide_eq_true (Nat.zero_le _)

theorem byte_append_toNat (b0 b1 : Byte) : (b0 ++ b1).toNat = b0.toNat * 256 + b1.toNat := by
  rw [BitVec.toNat_append, ← Nat.shiftLeft_add_eq_or_of_lt b1.isLt, Nat.shiftLeft_eq]

/-- Settles O58: `wordsOfBytes` undoes the writing of words as bytes, so the file is its image, and loading it is O57's
load; a file of one word has an empty payload, which always fits. -/
theorem imageFileIsBigEndianWords : Obligations.ImageFileIsBigEndianWords := by
  refine ⟨?_, fun b0 b1 => ?_⟩
  · rintro img _ wf rfl
    have read := Image.ofBytes_of_words (wordsOfBytes_flatMap_bytesOfWord (img.origin :: img.payload)) wf
    exact ⟨read, fun s => ⟨s.load img, State.boot_of_ofBytes read s, rfl, fun _ _ => s.load_mem_read wf⟩⟩
  · exact ⟨⟨b0 ++ b1, []⟩, Image.ofBytes_of_words rfl (Image.wf_of_no_payload _), rfl, byte_append_toNat b0 b1⟩

end Sys2Proof.Machine
end

section
/-! PROOF. The decoder and the encoder (R61, R68, R70 to R75). The decoder reads the opcode bits and the fields of its
format; what the encoder writes there is read back, and the bits it does not read make no difference. -/

namespace Sys2Proof

/-! ### Fields and their extensions -/

theorem sext_field_eq {n : Nat} (width : 0 < n ∧ n ≤ 16) {w v : Word} (fits : fitsSigned n v = true)
    (low : ∀ i, i < n → w.getLsbD i = v.getLsbD i) : sext (field w 0 n) = v := by
  rw [field_zero_eq low, sext_setWidth_of_fitsSigned width.1 width.2 fits]

theorem zext8_field_eq {w v : Word} (fits : fitsByte v = true)
    (low : ∀ i, i < 8 → w.getLsbD i = v.getLsbD i) : zext8 (field w 0 8) = v := by
  have small : v.toNat < 256 := of_decide_eq_true fits
  apply BitVec.eq_of_toNat_eq
  rw [zext8_toNat, field_zero_eq low, BitVec.toNat_setWidth]
  omega

theorem fitsSigned_sext {n : Nat} (width : 0 < n ∧ n ≤ 16) (f : BitVec n) : fitsSigned n (sext f) = true := by
  have two : (2 : Int) ^ n = 2 * 2 ^ (n - 1) := by
    rw [← pow_succ', Nat.sub_add_cancel width.1]
  have below := f.two_mul_toInt_lt
  have above := f.le_two_mul_toInt
  simp only [fitsSigned, sext, BitVec.toInt_signExtend_of_le width.2, Bool.and_eq_true, decide_eq_true_eq]
  omega

theorem fitsByte_zext8 (f : Byte) : fitsByte (zext8 f) = true := by
  rw [fitsByte, zext8_toNat]
  exact decide_eq_true f.isLt

@[simp] theorem regBits_regField_getLsbD (w : Word) (lo i : Nat) :
    (regBits (regField w lo)).getLsbD i = (decide (i < 3) && w.getLsbD (lo + i)) := by
  simp only [regBits, regField, field, BitVec.ofFin_toFin, BitVec.getLsbD_extractLsb']

@[simp] theorem lowBits_sext_field_getLsbD {n : Nat} (narrow : n ≤ 16) (w : Word) (i : Nat) :
    (lowBits n (sext (field w 0 n))).getLsbD i = (decide (i < n) && w.getLsbD i) := by
  by_cases hi : i < n
  · simp [lowBits, sext_getLsbD (Nat.lt_of_lt_of_le hi narrow), field, hi]
  · simp [lowBits, hi]

@[simp] theorem lowBits_zext8_field_getLsbD (w : Word) (i : Nat) :
    (lowBits 8 (zext8 (field w 0 8))).getLsbD i = (decide (i < 8) && w.getLsbD i) := by
  by_cases hi : i < 8
  · simp [lowBits, zext8, field, hi, -BitVec.getLsbD_eq_getElem]
  · simp [lowBits, hi]

/-! ### Decoding what was encoded -/

theorem regField_of_bits {w : Word} {lo : Nat} {r : Reg} (bit0 : w.getLsbD lo = (regBits r).getLsbD 0)
    (bit1 : w.getLsbD (lo + 1) = (regBits r).getLsbD 1) (bit2 : w.getLsbD (lo + 2) = (regBits r).getLsbD 2) :
    regField w lo = r :=
  regField_eq fun i hi => by interval_cases i <;> assumption

/-- Each format's opcode bits select its branch of the decoder, and each operand is read back from its field. -/
theorem decode_encode {i : Instr} (wf : i.wellFormed = true) : decode (encode i) = i := by
  generalize word : encode i = w
  have bit : ∀ k, w.getLsbD k = (encode i).getLsbD k := fun k => by rw [word]
  clear word
  cases i <;> simp only [encode, BitVec.getLsbD_append] at bit <;>
    simp [decode, bit, flagBit, -BitVec.getLsbD_eq_getElem]
  case addr | andr =>
    exact ⟨regField_of_bits (bit 9) (bit 10) (bit 11), regField_of_bits (bit 6) (bit 7) (bit 8),
      regField_of_bits (bit 0) (bit 1) (bit 2)⟩
  case addi | andi | ldr | str =>
    exact ⟨regField_of_bits (bit 9) (bit 10) (bit 11), regField_of_bits (bit 6) (bit 7) (bit 8),
      sext_field_eq (by decide) wf fun k hk => by simp [bit, lowBits, hk]⟩
  case ld | st | ldi | sti | lea =>
    exact ⟨regField_of_bits (bit 9) (bit 10) (bit 11),
      sext_field_eq (by decide) wf fun k hk => by simp [bit, lowBits, hk]⟩
  case not => exact ⟨regField_of_bits (bit 9) (bit 10) (bit 11), regField_of_bits (bit 6) (bit 7) (bit 8)⟩
  case jsrr | jmp => exact regField_of_bits (bit 6) (bit 7) (bit 8)
  case br | jsr => exact sext_field_eq (by decide) wf fun k hk => by simp [bit, lowBits, hk]
  case trap => exact zext8_field_eq wf fun k hk => by simp [bit, lowBits, hk]

/-- Settles O1: `decode_encode` is the statement. -/
theorem decodeInvertsEncode : Obligations.DecodeInvertsEncode := fun _ => decode_encode

/-! ### Encoding what was decoded -/

theorem decode_wellFormed (w : Word) : (decode w).wellFormed = true := by
  generalize shape : decode w = i
  unfold decode at shape
  split at shape <;> (try split at shape) <;> subst shape <;>
    simp [Instr.wellFormed, fitsSigned_sext, fitsByte_zext8]

/-- Bit by bit: each bit that is not ignored is one of the opcode or of a field, and comes out as it was. -/
theorem encode_decode_agree (w : Word) :
    encode (decode w) &&& ~~~ (decode w).ignoredBits = w &&& ~~~ (decode w).ignoredBits := by
  generalize shape : decode w = i
  unfold decode at shape
  split at shape <;> (try split at shape) <;> subst shape <;> apply BitVec.eq_of_getLsbD_eq <;> intro k hk <;>
    simp only [encode, Instr.ignoredBits, BitVec.getLsbD_and, BitVec.getLsbD_append] <;>
    interval_cases k <;> simp [-BitVec.getLsbD_eq_getElem, flagBit, *]

/-- The encoder writes the ignored bits of NOT as ones (R75). -/
theorem encode_not_ignoredBits (dr sr : Reg) :
    encode (.not dr sr) &&& (Instr.not dr sr).ignoredBits = 0x003F#16 := by
  apply BitVec.eq_of_getLsbD_eq
  intro k hk
  simp only [encode, Instr.ignoredBits, BitVec.getLsbD_and, BitVec.getLsbD_append]
  interval_cases k <;> simp

/-- The encoder writes the ignored bits of every other instruction as zeros (R75). -/
theorem encode_ignoredBits {i : Instr} (other : ¬ ∃ dr sr, i = .not dr sr) :
    encode i &&& i.ignoredBits = 0x0000#16 := by
  cases i with
  | not dr sr => exact absurd ⟨dr, sr, rfl⟩ other
  | _ =>
    apply BitVec.eq_of_getLsbD_eq
    intro k hk
    simp only [encode, Instr.ignoredBits, BitVec.getLsbD_and, BitVec.getLsbD_append]
    interval_cases k <;> simp

/-- Settles O2: the decoder gives fields their range, every bit it reads is written back, and the ignored bits are
those the encoder lays down for the instruction. -/
theorem encodeRestoresAllButIgnoredBits : Obligations.EncodeRestoresAllButIgnoredBits := by
  refine fun w => ⟨decode_wellFormed w, encode_decode_agree w, ?_, encode_ignoredBits⟩
  rintro ⟨dr, sr, isNot⟩
  rw [isNot]
  exact encode_not_ignoredBits dr sr

/-! ### The ignored bits -/

theorem getLsbD_eq_of_agree {v w m : Word} (agree : v &&& ~~~ m = w &&& ~~~ m) {k : Nat} (hk : k < 16)
    (kept : m.getLsbD k = false) : v.getLsbD k = w.getLsbD k := by
  have bit := congrArg (BitVec.getLsbD · k) agree
  simpa only [BitVec.getLsbD_and, BitVec.getLsbD_not, hk, kept, decide_true, Bool.not_false, Bool.and_true] using bit

theorem field_eq_of_agree {v w m : Word} (agree : v &&& ~~~ m = w &&& ~~~ m) {lo n : Nat} (top : lo + n ≤ 16)
    (kept : m.extractLsb' lo n = 0#n) : field v lo n = field w lo n := by
  apply BitVec.eq_of_getLsbD_eq
  intro i hi
  have clear := congrArg (BitVec.getLsbD · i) kept
  simp only [field, BitVec.getLsbD_extractLsb', hi, decide_true, Bool.true_and, BitVec.getLsbD_zero] at clear ⊢
  exact getLsbD_eq_of_agree agree (by omega) clear

/-- No bit and no field that the decoder reads for an instruction is among its ignored bits. -/
theorem decode_eq_of_agree {v w : Word}
    (agree : v &&& ~~~ (decode w).ignoredBits = w &&& ~~~ (decode w).ignoredBits) : decode v = decode w := by
  have bits : ∀ k, k < 16 → (decode w).ignoredBits.getLsbD k = false → v.getLsbD k = w.getLsbD k :=
    fun k => getLsbD_eq_of_agree agree
  have fields : ∀ lo n, lo + n ≤ 16 → (decode w).ignoredBits.extractLsb' lo n = 0#n → field v lo n = field w lo n :=
    fun lo n => field_eq_of_agree agree
  have regs : ∀ lo, lo + 3 ≤ 16 → (decode w).ignoredBits.extractLsb' lo 3 = 0#3 → regField v lo = regField w lo :=
    fun lo top kept => congrArg BitVec.toFin (fields lo 3 top kept)
  clear agree
  generalize shape : decode w = i at *
  unfold decode at shape
  split at shape <;> (try split at shape) <;> subst shape <;> simp only [Instr.ignoredBits] at bits fields regs <;>
    simp [-BitVec.getLsbD_eq_getElem, decode, *]

/-- Settles O3: the decoder reads none of the bits in which the words may differ. -/
theorem ignoredBitsHaveNoEffect : Obligations.IgnoredBitsHaveNoEffect := fun _ _ agree => decode_eq_of_agree agree.symm

/-! ### The opcode table -/

/-- The word with these bits at the places that tell the instructions apart, bits 15 to 11 and 5, and zeros elsewhere. -/
def opcodeWord (bit15 bit14 bit13 bit12 bit11 bit5 : Bool) : Word :=
  BitVec.ofBool bit15 ++ BitVec.ofBool bit14 ++ BitVec.ofBool bit13 ++ BitVec.ofBool bit12 ++ BitVec.ofBool bit11 ++
    0#5 ++ BitVec.ofBool bit5 ++ 0#5

/-- The rows that match the word are the one of its instruction. -/
def OfExactlyItsRow (w : Word) : Prop :=
  (opcodeTable.filter (·.matches w)).map (·.mnemonic) = [(decode w).mnemonic]

theorem opcodeWord_ofExactlyItsRow (bit15 bit14 bit13 bit12 bit11 bit5 : Bool) :
    OfExactlyItsRow (opcodeWord bit15 bit14 bit13 bit12 bit11 bit5) := by
  cases bit15 <;> cases bit14 <;> cases bit13 <;> cases bit12 <;> cases bit11 <;> cases bit5 <;> rfl

theorem and_eq_opcodeWord (w : Word) :
    w &&& 0xF820#16 = opcodeWord (w.getLsbD 15) (w.getLsbD 14) (w.getLsbD 13) (w.getLsbD 12) (w.getLsbD 11)
      (w.getLsbD 5) := by
  apply BitVec.eq_of_getLsbD_eq
  intro k hk
  simp only [opcodeWord, BitVec.getLsbD_and, BitVec.getLsbD_append]
  interval_cases k <;> simp [-BitVec.getLsbD_eq_getElem]

/-- No mask of the table has a bit outside 0xF820. -/
theorem matches_and {row : OpcodeRow} (listed : row ∈ opcodeTable) (w : Word) :
    row.matches (w &&& 0xF820#16) = row.matches w := by
  have mask : 0xF820#16 &&& row.mask = row.mask :=
    (by decide : ∀ row ∈ opcodeTable, 0xF820#16 &&& row.mask = row.mask) row listed
  rw [OpcodeRow.matches, OpcodeRow.matches, BitVec.and_assoc, mask]

theorem decode_mnemonic_and (w : Word) : (decode (w &&& 0xF820#16)).mnemonic = (decode w).mnemonic := by
  have bit : ∀ k, (0xF820#16).getLsbD k = true → (w &&& 0xF820#16).getLsbD k = w.getLsbD k := fun k kept => by
    rw [BitVec.getLsbD_and, kept, Bool.and_true]
  unfold decode
  rw [bit 15 rfl, bit 14 rfl, bit 13 rfl, bit 12 rfl, bit 11 rfl, bit 5 rfl]
  split <;> (try split) <;> simp only [Instr.mnemonic]

/-- Settles O4: both sides see bits 15 to 11 and 5 of the word only, and for these 64 words it is evaluated. -/
theorem everyWordIsOfExactlyOneTableRow : Obligations.EveryWordIsOfExactlyOneTableRow := by
  intro w
  have selected := opcodeWord_ofExactlyItsRow (w.getLsbD 15) (w.getLsbD 14) (w.getLsbD 13) (w.getLsbD 12)
    (w.getLsbD 11) (w.getLsbD 5)
  rw [← and_eq_opcodeWord, OfExactlyItsRow, decode_mnemonic_and] at selected
  rwa [List.filter_congr fun row listed => matches_and listed w] at selected

/-- Settles O5: each listed word is decoded by evaluation. -/
theorem specWordsDecodeAsListed : Obligations.SpecWordsDecodeAsListed :=
  ⟨rfl, rfl, rfl, rfl, rfl, rfl, rfl, rfl, rfl, rfl, rfl⟩

end Sys2Proof
end

section
/-! PROOF. What an instruction can do (R152): one list of its outcomes, and what they keep. -/

namespace Sys2Proof.Machine

/-! ### Several reads -/

/-- The state after reads of these addresses, in order. -/
def afterReads (s : State) (addrs : List Addr) : State :=
  addrs.foldl afterRead s

theorem afterReads_frame (s : State) (addrs : List Addr) : WalkFrame s (afterReads s addrs) := by
  induction addrs generalizing s with
  | nil => exact .refl s
  | cons a addrs ih => exact (WalkFrame.afterRead s a).trans (ih (afterRead s a))

@[simp] theorem afterReads_reg (s : State) (addrs : List Addr) (r : Reg) : (afterReads s addrs).reg r = s.reg r :=
  (afterReads_frame s addrs).regs r

@[simp] theorem afterReads_pc (s : State) (addrs : List Addr) : (afterReads s addrs).pc = s.pc :=
  (afterReads_frame s addrs).pc

@[simp] theorem afterReads_cond (s : State) (addrs : List Addr) : (afterReads s addrs).cond = s.cond :=
  (afterReads_frame s addrs).cond

@[simp] theorem afterReads_routine (s : State) (addrs : List Addr) : (afterReads s addrs).routine = s.routine :=
  (afterReads_frame s addrs).routine

@[simp] theorem afterReads_cfg (s : State) (addrs : List Addr) : (afterReads s addrs).cfg = s.cfg :=
  (afterReads_frame s addrs).cfg

@[simp] theorem afterReads_console (s : State) (addrs : List Addr) : (afterReads s addrs).console = s.console := by
  induction addrs generalizing s with
  | nil => rfl
  | cons a addrs ih => exact (ih (afterRead s a)).trans (afterRead_console s a)

theorem afterReads_plain {s : State} {addrs : List Addr} (away : s.cfg.kbsrAddr ∉ addrs) : afterReads s addrs = s := by
  induction addrs with
  | nil => rfl
  | cons a addrs ih =>
    obtain ⟨first, later⟩ := not_or.1 (mt List.mem_cons.2 away)
    rw [afterReads, List.foldl_cons, afterRead_plain (Ne.symm first)]
    exact ih later

/-- The addresses an instruction but TRAP reads after its fetch, in order. -/
def readAddrs (s : State) : Instr → List Addr
  | .ld _ off => [eaPcRel s off]
  | .ldr _ baseR off => [eaBase s baseR off]
  | .ldi _ off => [eaPcRel s off, (eaIndirect s off).1]
  | .sti _ off => [eaPcRel s off]
  | _ => []

/-- They are those of `readsStatus`. -/
theorem readAddrs_away {s : State} {i : Instr} (away : ¬ readsStatus s i) : s.cfg.kbsrAddr ∉ readAddrs s i := by
  cases i with
  | ld | ldr | ldi | sti => simpa [readAddrs, readsStatus, eq_comm] using away
  | _ => exact List.not_mem_nil

/-! ### The outcomes of an instruction -/

/-- What an instruction does in the state `s`, the incremented PC in `pc`. -/
inductive Runs (s : State) : Instr → Host.Outcome State Fault Refusal → Prop where
  /-- A result-producing instruction (R28). -/
  | result {i : Instr} {dr : Reg} (v : Word) (dest : resultReg i = some dr) :
      Runs s i (.next ((afterReads s (readAddrs s i)).writeResult dr v))
  /-- ST, STI and STR (R124 to R126). -/
  | store {i : Instr} {sr : Reg} {ea : Addr} (source : storeSource i = some sr) (target : storeTarget s i = some ea) :
      Runs s i (.next ((afterReads s (readAddrs s i)).storeCell ea (s.reg sr)))
  | branch (n z p : Bool) (off : Word) :
      Runs s (.br n z p off) (.next (s.setPc (if branchTaken n z p s.cond then s.pc + off else s.pc)))
  | jump (baseR : Reg) : Runs s (.jmp baseR) (.next (s.setPc (s.reg baseR)))
  | call (off : Word) : Runs s (.jsr off) (.next (s.link.setPc (s.pc + off)))
  | callRegister (baseR : Reg) :
      Runs s (.jsrr baseR) (.next (s.link.setPc (if baseR = linkReg then s.pc else s.reg baseR)))
  | rti : Runs s .rti (.fault (.fatal (.illegalOpcode .rti) s))
  | res : Runs s .res (.fault (.fatal (.illegalOpcode .res) s))
  /-- GETC or IN with no character there (R142). -/
  | wait {vect : Word} (reads : isReadVector s vect) (empty : noKeyPending s) :
      Runs s (.trap vect) (.next (s.kbdArrive.setPc (s.pc - 1#16)))
  /-- GETC or IN with a character there (R132, R135). -/
  | key {vect : Word} {c : Byte} {rest : List Byte} (echo : List Byte) (reads : isReadVector s vect)
      (queue : s.kbdArrive.kbdQueue = c :: rest) :
      Runs s (.trap vect) (.next ((deliverKey c (s.kbdArrive.setQueue rest)).conOut echo))
  | out (bs : List Byte) : Runs s (.trap (zext8 s.cfg.trapOut)) (.next (s.link.conOut bs))
  /-- PUTS and PUTSP (R134, R136). -/
  | string (r : StringRoutine) {o : Host.Outcome State Fault Refusal} (walk : runString r s.link = o) :
      Runs s (.trap (routineVector s.cfg r)) o
  | halt : Runs s (.trap (zext8 trapHalt)) (.next ((s.link.conOut s.cfg.haltNotice).withRun false))
  | unknown {vect : Word} (none_of_six : ¬ isKnownVector s vect) :
      Runs s (.trap vect) (.fault (.fatal (.unknownTrapVector vect) s.link))

theorem exec_store {i : Instr} {s : State} {sr : Reg} {ea : Addr} (source : storeSource i = some sr)
    (target : storeTarget s i = some ea) :
    exec i s = .next ((afterReads s (readAddrs s i)).storeCell ea (s.reg sr)) := by
  cases i <;> cases source <;> cases target <;> rfl

theorem exec_br (n z p : Bool) (off : Word) (s : State) :
    exec (.br n z p off) s = .next (s.setPc (if branchTaken n z p s.cond then s.pc + off else s.pc)) := by
  rw [exec, execBr]
  split <;> rfl

theorem exec_jsrr (baseR : Reg) (s : State) :
    exec (.jsrr baseR) s = .next (s.link.setPc (if baseR = linkReg then s.pc else s.reg baseR)) := by
  rw [exec, execJsrr]
  split
  · next isLink => rw [isLink, State.link_reg_self]
  · next other => rw [State.link_reg_ne s other]

theorem execTrap_runs (vect : Word) (s : State) : Runs s (.trap vect) (execTrap vect s) := by
  rcases execTrap_cases vect s with ⟨rfl, e⟩ | ⟨rfl, e⟩ | ⟨rfl, e⟩ | ⟨rfl, e⟩ | ⟨rfl, e⟩ | ⟨rfl, e⟩ |
    ⟨h1, h2, h3, h4, h5, h6, e⟩ <;> rw [e]
  case inl =>
    rcases trapGetcRoutine_cases s with ⟨empty, e⟩ | ⟨c, rest, queue, e⟩ <;> rw [e]
    · exact .wait (.inl rfl) empty
    · rw [← State.conOut_nil (deliverKey c _)]
      exact .key [] (.inl rfl) queue
  case inr.inl => exact .out _
  case inr.inr.inl => exact .string .puts rfl
  case inr.inr.inr.inl =>
    rcases trapInRoutine_cases s with ⟨empty, e⟩ | ⟨c, rest, queue, e⟩ <;> rw [e]
    · exact .wait (.inr rfl) empty
    · exact .key _ (.inr rfl) queue
  case inr.inr.inr.inr.inl => exact .string .putsp rfl
  case inr.inr.inr.inr.inr.inl => exact .halt
  case inr.inr.inr.inr.inr.inr => exact .unknown (by simp [isKnownVector, *])

/-- The whole of what an instruction can do. -/
theorem exec_runs (i : Instr) (s : State) : Runs s i (exec i s) := by
  cases i with
  | br n z p off => exact exec_br n z p off s ▸ .branch n z p off
  | jmp baseR => exact .jump baseR
  | jsr off => exact .call off
  | jsrr baseR => exact exec_jsrr baseR s ▸ .callRegister baseR
  | st | sti | str => exact .store rfl rfl
  | rti => exact .rti
  | res => exact .res
  | trap vect => exact execTrap_runs vect s
  | addr | addi | andr | andi | not | lea | ld | ldi | ldr => exact .result _ rfl

theorem runs_of_exec {i : Instr} {s : State} {o : Host.Outcome State Fault Refusal} (h : exec i s = o) : Runs s i o :=
  h ▸ exec_runs i s

end Sys2Proof.Machine
end

section
/-! PROOF. `MemRead` with its poll (R42) and the two keyboard operations (R46). -/

namespace Sys2Proof.Machine

/-! ### The poll of a read of `KBSR_ADDR` -/

theorem memRead_plain {s : State} {a : Addr} (plain : a ≠ s.cfg.kbsrAddr) : memRead s a = (s.mem.read a, s) := by
  simp [memRead, afterRead_plain plain]

theorem pollKeyboard_arrivalsAfterOne (s : State) : ArrivalsAfterOne s (pollKeyboard s) := by
  rcases pollKeyboard_cases s with ⟨-, e⟩ | ⟨c, rest, -, e⟩ <;> rw [e] <;> exact ⟨rfl, rfl⟩

theorem pollKeyboard_kbdQueue (s : State) : (pollKeyboard s).kbdQueue = s.kbdArrive.kbdQueue.tail := by
  rcases pollKeyboard_cases s with ⟨empty, e⟩ | ⟨c, rest, key, e⟩
  · simp [e, empty]
  · simp [e, key]

/-- The data register stays where no character is there (R42). -/
theorem pollKeyboard_data_of_empty {s : State} (apart : s.cfg.kbsrAddr ≠ s.cfg.kbdrAddr)
    (empty : s.kbdArrive.kbdQueue = []) :
    (pollKeyboard s).mem.read s.cfg.kbdrAddr = s.mem.read s.cfg.kbdrAddr := by
  rw [pollKeyboard_mem_of_empty empty, Memory.read_write_ne _ _ (Ne.symm apart)]

/-- Settles O9: away from `KBSR_ADDR` there is no poll; there, the poll's two cases give the status, the data register and
the queue, and it keeps everything else. -/
theorem memReadPollsOnlyAtKeyboardStatus : Obligations.MemReadPollsOnlyAtKeyboardStatus := by
  refine ⟨fun s a => memRead_plain, ?_⟩
  intro s t v wf read
  have apart := configWf_addr wf
  obtain rfl : (memRead s s.cfg.kbsrAddr).1 = v := congrArg Prod.fst read
  obtain rfl : pollKeyboard s = t := (afterRead_status s).symm.trans (congrArg Prod.snd read)
  refine ⟨⟨fun r _ => pollKeyboard_reg s r, pollKeyboard_cond s, pollKeyboard_pc s⟩,
    ⟨⟨pollKeyboard_run s, pollKeyboard_routine s, pollKeyboard_cfg s⟩, pollKeyboard_console s⟩,
    fun a status data => pollKeyboard_mem_read s status data, ?_, pollKeyboard_arrivalsAfterOne s,
    fun empty => ⟨memRead_status_of_empty empty, pollKeyboard_data_of_empty apart empty, ?_⟩,
    fun c rest key => ⟨memRead_status_of_key apart key, ?_, ?_⟩⟩
  · rw [memRead_fst, afterRead_status]
  · rw [pollKeyboard_kbdQueue, empty, List.tail_nil]
  · rw [← memRead_status_data_of_key key, memRead_snd, afterRead_status]
  · rw [pollKeyboard_kbdQueue, key, List.tail_cons]

/-! ### The keyboard operations -/

theorem kbdArrive_frame (s : State) : SameCore s s.kbdArrive ∧ SameMemory s s.kbdArrive ∧ SameControl s s.kbdArrive :=
  ⟨⟨fun _ _ => rfl, rfl, rfl⟩, fun _ => rfl, ⟨rfl, rfl, rfl⟩, rfl⟩

/-- Settles O10: both operations are `kbdPoll`; with no character it is the arrival, with one it also takes the first
character off the queue, and so off the stream. -/
theorem keyboardOperationsTakeTheFirstCharacter : Obligations.KeyboardOperationsTakeTheFirstCharacter := by
  intro s op isOp
  obtain rfl : op = State.kbdPoll := isOp.elim id fun e => e.trans (funext kbdRead_eq_kbdPoll)
  obtain ⟨core, memory, control⟩ := kbdArrive_frame s
  rcases kbdPoll_cases s with ⟨empty, e⟩ | ⟨c, rest, key, e⟩ <;> rw [e]
  · exact ⟨core, memory, control, iff_of_true rfl empty, fun _ _ => rfl, nofun⟩
  · refine ⟨core, memory, control, iff_of_false nofun (by simp [noKeyPending, key]), nofun, ?_⟩
    rintro _ ⟨⟩ n
    exact kbdStream_setQueue key n

end Sys2Proof.Machine
end

section
/-! PROOF. Control transfer (R110 to R113), loads and stores (R120 to R129) and LEA, instruction by instruction. -/

namespace Sys2Proof.Machine

/-! ### Control transfer -/

theorem branchTaken_iff (n z p : Bool) (c : BitVec 3) :
    branchTaken n z p c = true ↔
      (n = true ∧ c = 0b100#3) ∨ (z = true ∧ c = 0b010#3) ∨ (p = true ∧ c = 0b001#3) := by
  simp only [branchTaken, Bool.or_eq_true, Bool.and_eq_true, beq_iff_eq, or_assoc]

/-- With COND one-hot the test is that of R66. -/
theorem branchTaken_of_condOneHot : ∀ (n z p : Bool) (c : BitVec 3), condOneHot c = true →
    (branchTaken n z p c = true ↔ (flagBit n ++ flagBit z ++ flagBit p) &&& c ≠ 0#3) := by
  decide

theorem setPc_frame (s : State) (v : Word) : SameRegsExcept [] s (s.setPc v) ∧ (s.setPc v).cond = s.cond ∧
    SameMemory s (s.setPc v) ∧ SameKeyboard s (s.setPc v) ∧ SameControl s (s.setPc v) :=
  ⟨fun _ _ => rfl, rfl, fun _ => rfl, ⟨rfl, rfl, rfl⟩, ⟨rfl, rfl, rfl⟩, rfl⟩

/-- The registers after a link, whatever follows that writes none. -/
theorem link_sameRegsExcept (s : State) : SameRegsExcept [7] s s.link :=
  fun _ other => s.link_reg_ne (List.ne_of_not_mem_cons other)

theorem link_setPc_frame (s : State) (v : Word) : SameRegsExcept [7] s (s.link.setPc v) ∧
    (s.link.setPc v).cond = s.cond ∧ SameMemory s (s.link.setPc v) ∧ SameKeyboard s (s.link.setPc v) ∧
    SameControl s (s.link.setPc v) :=
  ⟨link_sameRegsExcept s, rfl, fun _ => rfl, ⟨rfl, rfl, rfl⟩, ⟨rfl, rfl, rfl⟩, rfl⟩

/-- Settles O13: `exec_br` gives the next state, `branchTaken_iff` and `branchTaken_of_condOneHot` the test. -/
theorem branchTakenOnRequestedCondition : Obligations.BranchTakenOnRequestedCondition := by
  intro s n z p off
  refine ⟨_, exec_br n z p off s, fun requested => ?_, fun not_requested => ?_, fun oneHot => ?_, setPc_frame s _⟩
  · rw [State.setPc_pc, if_pos ((branchTaken_iff n z p s.cond).2 requested)]
  · rw [State.setPc_pc, if_neg (mt (branchTaken_iff n z p s.cond).1 not_requested)]
  · exact if_congr (branchTaken_of_condOneHot n z p s.cond oneHot) rfl rfl

/-- Settles O14: JMP only sets `pc`. -/
theorem jumpGoesToTheBaseRegister : Obligations.JumpGoesToTheBaseRegister :=
  fun s baseR => ⟨_, rfl, rfl, setPc_frame s (s.reg baseR)⟩

/-- Settles O15: JSR sets R7 to the incremented PC and then `pc`. -/
theorem subroutineCallLinksThenJumps : Obligations.SubroutineCallLinksThenJumps :=
  fun s off => ⟨_, rfl, s.link_reg_self, rfl, link_setPc_frame s (s.pc + off)⟩

/-- Settles O16: `exec_jsrr` tells the base register that is the link register from the others. -/
theorem registerCallLinksThenReadsTheBase : Obligations.RegisterCallLinksThenReadsTheBase :=
  fun s baseR => ⟨_, exec_jsrr baseR s, s.link_reg_self, fun other => if_neg other, fun isLink => if_pos isLink,
    link_setPc_frame s _⟩

/-! ### LEA and the loads -/

/-- Settles O12: LEA ends in `writeResult` on the state it ran in. -/
theorem leaWritesTheAddress : Obligations.LeaWritesTheAddress := fun _ _ _ => exec_writeResult_frame rfl

/-- The result of an instruction that first reads memory. -/
theorem afterReads_writeResult (s : State) (addrs : List Addr) (dr : Reg) (v : Word) :
    ResultWritten dr v s ((afterReads s addrs).writeResult dr v) ∧
    SameControl s ((afterReads s addrs).writeResult dr v) := by
  have frame := afterReads_frame s addrs
  refine ⟨⟨State.writeResult_reg_self _ dr v, rfl, fun r other => ?_, frame.pc⟩,
    ⟨frame.run, frame.routine, frame.cfg⟩, afterReads_console s addrs⟩
  rw [State.writeResult_reg_ne _ v (List.ne_of_not_mem_cons other)]
  exact frame.regs r

/-- The whole of a load from `ea`. -/
theorem loadFrom_spec {s u : State} {ea : Addr} {v : Word} (dr : Reg) (read : memRead s ea = (v, u)) :
    ResultWritten dr v s (loadFrom dr ea s) ∧ SameControl s (loadFrom dr ea s) ∧ SameMemory u (loadFrom dr ea s) ∧
    SameKeyboard u (loadFrom dr ea s) ∧
    (ea ≠ s.cfg.kbsrAddr → v = s.mem.read ea ∧ SameMemory s (loadFrom dr ea s) ∧ SameKeyboard s (loadFrom dr ea s)) := by
  obtain rfl : (memRead s ea).1 = v := congrArg Prod.fst read
  obtain rfl : (memRead s ea).2 = u := congrArg Prod.snd read
  obtain ⟨result, control⟩ := afterReads_writeResult s [ea] dr (memRead s ea).1
  refine ⟨result, control, fun _ => rfl, ⟨rfl, rfl, rfl⟩, fun plain => ?_⟩
  rw [loadFrom, memRead_plain plain]
  exact ⟨rfl, fun _ => rfl, rfl, rfl, rfl⟩

/-- Settles O17: LD is the load of `loadFrom_spec` from the incremented PC plus the offset. -/
theorem loadPcRelative : Obligations.LoadPcRelative := fun _ _ dr _ _ read => ⟨_, rfl, loadFrom_spec dr read⟩

/-- Settles O19: the base register is read in the state before, the destination included. -/
theorem loadBaseOffset : Obligations.LoadBaseOffset := fun _ _ dr _ _ _ read => ⟨_, rfl, loadFrom_spec dr read⟩

theorem exec_ldi_of_reads {s s1 s2 : State} {off p v : Word} (dr : Reg) (pointer : memRead s (s.pc + off) = (p, s1))
    (data : memRead s1 p = (v, s2)) : exec (.ldi dr off) s = .next (s2.writeResult dr v) := by
  rw [exec, execLdi, eaIndirect, eaPcRel, pointer, loadFrom, data]

/-- Settles O18: the state of the result is the one the two reads leave, and away from `KBSR_ADDR` neither changes it. -/
theorem loadIndirect : Obligations.LoadIndirect := by
  intro s s1 s2 dr off p v pointer data
  have reads : s2 = afterReads s [s.pc + off, p] := by
    rw [afterReads, List.foldl_cons, List.foldl_cons, List.foldl_nil, ← memRead_snd s, pointer, ← memRead_snd, data]
  obtain ⟨result, control⟩ := afterReads_writeResult s [s.pc + off, p] dr v
  rw [← reads] at result control
  refine ⟨_, exec_ldi_of_reads dr pointer data, result, control, fun _ => rfl, ⟨rfl, rfl, rfl⟩, fun plain plain' => ?_⟩
  rw [memRead_plain plain] at pointer
  cases pointer
  rw [memRead_plain plain'] at data
  cases data
  exact ⟨rfl, fun _ => rfl, rfl, rfl, rfl⟩

theorem loadFrom_plain {s : State} {ea : Addr} (dr : Reg) (plain : ea ≠ s.cfg.kbsrAddr) :
    loadFrom dr ea s = s.writeResult dr (s.mem.read ea) := by
  rw [loadFrom, memRead_plain plain]

/-- A load from the address its destination holds. -/
theorem exec_ldr_of_pointer {s : State} {p : Word} (dr : Reg) (plain : p ≠ s.cfg.kbsrAddr) :
    exec (.ldr dr dr 0x0000#16) (s.writeResult dr p) = .next ((s.writeResult dr p).writeResult dr (s.mem.read p)) := by
  have ea : eaBase (s.writeResult dr p) dr 0x0000#16 = p := by simp [eaBase]
  rw [exec, execLdr, ea, loadFrom_plain (s := s.writeResult dr p) dr plain, State.writeResult_mem]

/-- Settles O23: away from `KBSR_ADDR` both ways end with the word in the cell that the pointer names. -/
theorem loadIndirectIsTwoChainedLoads : Obligations.LoadIndirectIsTwoChainedLoads := by
  intro s dr off plain plain'
  have first : exec (.ld dr off) s = .next (s.writeResult dr (s.mem.read (s.pc + off))) :=
    congrArg Host.Outcome.next (loadFrom_plain dr plain)
  refine ⟨_, _, _, exec_ldi_of_reads dr (memRead_plain plain) (memRead_plain plain'), first,
    exec_ldr_of_pointer dr plain', ?_, rfl⟩
  rw [State.writeResult_reg_self, State.writeResult_reg_self]

theorem exec_ldi_pointer_plain {s : State} {off : Word} (dr : Reg) (plain : s.pc + off ≠ s.cfg.kbsrAddr) :
    exec (.ldi dr off) s = .next (loadFrom dr (s.mem.read (s.pc + off)) s) := by
  rw [exec, execLdi, eaIndirect, eaPcRel, memRead_plain plain]

/-- The three loads at `KBSR_ADDR` are one. -/
theorem exec_statusLoad {s : State} {i : Instr} {dr : Reg}
    (load : (∃ off, i = .ld dr off ∧ s.pc + off = s.cfg.kbsrAddr) ∨
      (∃ baseR off, i = .ldr dr baseR off ∧ s.reg baseR + off = s.cfg.kbsrAddr) ∨
      (∃ off, i = .ldi dr off ∧ s.pc + off ≠ s.cfg.kbsrAddr ∧ s.mem.read (s.pc + off) = s.cfg.kbsrAddr)) :
    exec i s = .next (loadFrom dr s.cfg.kbsrAddr s) := by
  rcases load with ⟨off, rfl, ea⟩ | ⟨baseR, off, rfl, ea⟩ | ⟨off, rfl, plain, ea⟩
  · rw [exec, execLd, eaPcRel, ea]
  · rw [exec, execLdr, eaBase, ea]
  · rw [exec_ldi_pointer_plain dr plain, ea]

/-- Settles O24: the load takes its word and its state from the read of `KBSR_ADDR`, whose two cases are those of R42. -/
theorem loadOfTheStatusCell : Obligations.LoadOfTheStatusCell := by
  intro s i dr wf load
  have result : ∀ {v}, (memRead s s.cfg.kbsrAddr).1 = v →
      (loadFrom dr s.cfg.kbsrAddr s).reg dr = v ∧ (loadFrom dr s.cfg.kbsrAddr s).cond = condOf v := by
    rintro _ rfl
    exact ⟨State.writeResult_reg_self _ _ _, rfl⟩
  refine ⟨_, exec_statusLoad load, fun empty => result (memRead_status_of_empty empty), fun c rest key => ?_⟩
  obtain ⟨dest, cond⟩ := result (memRead_status_of_key (configWf_addr wf) key)
  refine ⟨dest, cond, memRead_status_data_of_key key, ?_⟩
  rw [loadFrom, State.writeResult_kbdQueue, memRead_snd, afterRead_status, pollKeyboard_kbdQueue, key, List.tail_cons]

/-! ### The stores -/

theorem storeCell_frame (s : State) (ea : Addr) (v : Word) :
    (s.storeCell ea v).mem.read ea = v ∧ SameMemoryExcept ea s (s.storeCell ea v) ∧ SameCore s (s.storeCell ea v) ∧
    SameKeyboard s (s.storeCell ea v) ∧ SameControl s (s.storeCell ea v) :=
  ⟨Memory.read_write_self _ ea v, fun _ other => Memory.read_write_ne _ v other, ⟨fun _ _ => rfl, rfl, rfl⟩,
    ⟨rfl, rfl, rfl⟩, ⟨rfl, rfl, rfl⟩, rfl⟩

/-- Settles O20: ST is a store in the state it runs in. -/
theorem storePcRelative : Obligations.StorePcRelative :=
  fun s sr off => ⟨_, rfl, storeCell_frame s (s.pc + off) (s.reg sr)⟩

/-- Settles O22: STR is a store in the state it runs in. -/
theorem storeBaseOffset : Obligations.StoreBaseOffset :=
  fun s sr baseR off => ⟨_, rfl, storeCell_frame s (s.reg baseR + off) (s.reg sr)⟩

/-- Settles O21: the store is in the state the pointer read leaves, which away from `KBSR_ADDR` is the one before. -/
theorem storeIndirect : Obligations.StoreIndirect := by
  intro s s1 sr off p pointer
  obtain rfl : afterRead s (s.pc + off) = s1 := congrArg Prod.snd pointer
  have e : exec (.sti sr off) s = .next ((afterRead s (s.pc + off)).storeCell p (s.reg sr)) := by
    rw [exec, execSti, eaIndirect, eaPcRel, pointer, memWrite_eq]
  obtain ⟨cell, others, -, keyboard, -⟩ := storeCell_frame (afterRead s (s.pc + off)) p (s.reg sr)
  have frame := WalkFrame.afterRead s (s.pc + off)
  refine ⟨_, e, cell, others, keyboard, ⟨fun r _ => frame.regs r, frame.cond, frame.pc⟩,
    ⟨⟨frame.run, frame.routine, frame.cfg⟩, afterRead_console s _⟩, fun plain => ?_⟩
  rw [memRead_plain plain] at pointer
  rw [afterRead_plain plain]
  exact ⟨(congrArg Prod.fst pointer).symm, fun _ other => Memory.read_write_ne _ _ other, rfl, rfl, rfl⟩

/-- What the pointer read of a store leaves in a cell that is not `KBSR_ADDR`: the old word, but where it is KBDR and an
STI reads `KBSR_ADDR`. -/
theorem afterReads_store_read {i : Instr} {s : State} {sr : Reg} (source : storeSource i = some sr) {a : Addr}
    (status : a ≠ s.cfg.kbsrAddr)
    (data : a ≠ s.cfg.kbdrAddr ∨ ∀ off, i = .sti sr off → s.pc + off ≠ s.cfg.kbsrAddr) :
    (afterReads s (readAddrs s i)).mem.read a = s.mem.read a := by
  rcases data with data | unread
  · exact (afterReads_frame s _).mem a status data
  · have away : ¬ readsStatus s i := by
      cases i <;> cases source
      case st | str => exact id
      case sti off => exact unread off rfl
    rw [afterReads_plain (readAddrs_away away)]

/-- Settles O25: the fetch reads the cell at `pc` after the store, which is the stored word at the store's address and
what the pointer read left elsewhere. -/
theorem storeIsSeenByTheNextFetch : Obligations.StoreIsSeenByTheNextFetch := by
  intro i s t sr ea source target h status
  obtain rfl := Host.Outcome.next.inj ((exec_store source target).symm.trans h)
  rw [fetch_plain status]
  simp only [State.storeCell_pc, State.storeCell_cfg, State.storeCell_mem, afterReads_pc, afterReads_cfg] at status ⊢
  refine ⟨trivial, fun same => ?_, fun other data => ?_⟩
  · rw [same, Memory.read_write_self]
  · rw [Memory.read_write_ne _ _ (Ne.symm other), afterReads_store_read source status data]

end Sys2Proof.Machine
end

section
/-! PROOF. TRAP but for its string routines (R132, R133, R135, R137, R138, R142), RTI and RES (R139, R140). -/

namespace Sys2Proof.Machine

/-! ### GETC and IN -/

theorem lowByte_zext8 (c : Byte) : lowByte (zext8 c) = c := by
  apply BitVec.eq_of_toNat_eq
  rw [lowByte, field, BitVec.extractLsb'_toNat, zext8_toNat, Nat.shiftRight_zero, Nat.mod_eq_of_lt c.isLt]

/-- A character is never negative (D10). -/
theorem condOf_zext8 (c : Byte) : condOf (zext8 c) = if c = 0x00#8 then 0b010#3 else 0b001#3 := by
  split
  · next zero => rw [zero]; rfl
  · next nonzero =>
    have word : zext8 c ≠ 0x0000#16 := fun zero => nonzero (zext8_injective (b := 0x00#8) zero)
    exact (condOf_eq_positive_iff _).2 ⟨by simp [zext8], word⟩

theorem deliverKey_reg_zero (c : Byte) (s : State) : (deliverKey c s).reg 0 = zext8 c :=
  State.writeResult_reg_self _ _ _

theorem deliverKey_reg_link (c : Byte) (s : State) : (deliverKey c s).reg 7 = s.pc := by
  rw [deliverKey, State.writeResult_reg_ne _ _ (by decide), State.link_reg_self]

theorem deliverKey_sameRegsExcept (c : Byte) (s : State) : SameRegsExcept [0, 7] s (deliverKey c s) := by
  intro r other
  obtain ⟨data, other⟩ := not_or.1 (mt List.mem_cons.2 other)
  rw [deliverKey, State.writeResult_reg_ne _ _ data, State.link_reg_ne _ (List.ne_of_not_mem_cons other)]

/-- The whole of what a read routine does with the character it takes (R132). -/
theorem key_frame (s : State) (c : Byte) (rest echo : List Byte) {t : State}
    (e : t = (deliverKey c (s.kbdArrive.setQueue rest)).conOut echo) :
    t.reg 7 = s.pc ∧ t.reg 0 = zext8 c ∧ t.cond = (if c = 0x00#8 then 0b010#3 else 0b001#3) ∧
    t.console = s.console ++ echo ∧ SameRegsExcept [0, 7] s t ∧ t.pc = s.pc ∧ SameMemory s t ∧ SameMode s t ∧
    t.kbdQueue = rest ∧ ArrivalsAfterOne s t := by
  subst e
  exact ⟨deliverKey_reg_link c (s.kbdArrive.setQueue rest), deliverKey_reg_zero c _, condOf_zext8 c, rfl,
    deliverKey_sameRegsExcept c (s.kbdArrive.setQueue rest), rfl, fun _ => rfl, ⟨rfl, rfl, rfl⟩, rfl, rfl, rfl⟩

theorem trapGetcRoutine_of_key {s : State} {c : Byte} {rest : List Byte} (key : s.kbdArrive.kbdQueue = c :: rest) :
    trapGetcRoutine s = .next (deliverKey c (s.kbdArrive.setQueue rest)) := by
  rcases trapGetcRoutine_cases s with ⟨empty, -⟩ | ⟨_, _, key', e⟩
  · exact nomatch empty.symm.trans key
  · cases key.symm.trans key'
    exact e

theorem trapInRoutine_of_key {s : State} {c : Byte} {rest : List Byte} (key : s.kbdArrive.kbdQueue = c :: rest) :
    trapInRoutine s = .next ((deliverKey c (s.kbdArrive.setQueue rest)).conOut [c]) := by
  rcases trapInRoutine_cases s with ⟨empty, -⟩ | ⟨_, _, key', e⟩
  · exact nomatch empty.symm.trans key
  · cases key.symm.trans key'
    rw [e, deliverKey_reg_zero, lowByte_zext8]

/-- Settles O26: nothing is echoed, so the console is the one before. -/
theorem getcDeliversTheCharacter : Obligations.GetcDeliversTheCharacter := by
  intro s c rest key
  obtain ⟨link, data, cond, console, regs, pc, memory, mode, queue, arrivals⟩ :=
    key_frame s c rest [] (State.conOut_nil _).symm
  exact ⟨_, (execTrap_getc s).trans (trapGetcRoutine_of_key key), link, data, cond, regs, pc, memory,
    ⟨mode, console.trans (List.append_nil _)⟩, queue, arrivals⟩

/-- Settles O27: what is echoed is the character taken. -/
theorem inEchoesTheCharacter : Obligations.InEchoesTheCharacter :=
  fun s c rest wf key => ⟨_, (execTrap_in wf).trans (trapInRoutine_of_key key), key_frame s c rest [c] rfl⟩

/-- A read trap with no character there only lets the environment's time pass, `pc` back at the TRAP (R142). -/
theorem exec_wait {s : State} {vect : Word} (wf : configWf s.cfg = true) (reads : isReadVector s vect)
    (empty : noKeyPending s) : exec (.trap vect) s = .next (s.kbdArrive.setPc (s.pc - 1#16)) := by
  rcases reads with rfl | rfl
  · rcases trapGetcRoutine_cases s with ⟨-, e⟩ | ⟨_, _, key, -⟩
    · exact (execTrap_getc s).trans e
    · exact nomatch empty.symm.trans key
  · rcases trapInRoutine_cases s with ⟨-, e⟩ | ⟨_, _, key, -⟩
    · exact (execTrap_in wf).trans e
    · exact nomatch empty.symm.trans key

/-- The poll's answers 0x0000 and 0x8000 are no TRAP, so a fetched TRAP was fetched away from `KBSR_ADDR`. -/
theorem fetch_trap_plain {s : State} {vect : Word} (wf : configWf s.cfg = true)
    (trap : decode (memRead s s.pc).1 = .trap vect) : s.pc ≠ s.cfg.kbsrAddr := by
  intro status
  rw [status] at trap
  rcases memRead_status s (configWf_addr wf) with answer | answer <;> rw [answer] at trap <;> cases trap

theorem step_plain {s : State} (running : s.run = true) (idle : s.routine = none) (plain : s.pc ≠ s.cfg.kbsrAddr) :
    step s = exec (decode (s.mem.read s.pc)) (s.setPc (s.pc + 1#16)) :=
  step_of_memRead running idle (memRead_plain plain)

theorem kbdArrive_kbdQueue_of_empty {s : State} (empty : noKeyPending s) : s.kbdArrive.kbdQueue = s.kbdQueue :=
  empty.trans (List.append_eq_nil_iff.1 empty).1.symm

/-- With nothing more to arrive the environment's time changes nothing. -/
theorem kbdArrive_of_ended {s : State} (empty : noKeyPending s) (arrivals : s.kbdArrivals = [])
    (supply : s.kbdSupply = .ended) : s.kbdArrive = s := by
  have queue := kbdArrive_kbdQueue_of_empty empty
  rw [State.kbdArrive_kbdQueue] at queue
  cases s
  simp_all [State.kbdArrive, State.kbdSupplyLater, KbdSupply.later]

/-- Settles O36: the fetch incremented `pc` and polled nothing, and waiting takes `pc` back. -/
theorem readTrapWaitsForACharacter : Obligations.ReadTrapWaitsForACharacter := by
  intro s vect running idle wf trap reads empty
  have plain := fetch_trap_plain wf trap
  have back : s.pc + 1#16 - 1#16 = s.pc := BitVec.add_sub_cancel _ _
  have e : step s = .next (s.kbdArrive.setPc s.pc) := by
    rw [memRead_plain plain] at trap
    rw [step_plain running idle plain, trap, exec_wait (s := s.setPc (s.pc + 1#16)) wf reads empty, State.setPc_pc,
      back]
    rfl
  refine ⟨_, e, ⟨fun _ _ => rfl, rfl, rfl⟩, rfl, ⟨⟨rfl, rfl, rfl⟩, rfl⟩, kbdArrive_kbdQueue_of_empty empty, ⟨rfl, rfl⟩,
    fun arrivals supply => ?_⟩
  rw [kbdArrive_of_ended empty arrivals supply]
  rfl

/-! ### OUT, HALT and the fatal errors -/

/-- Settles O28: the link does not touch R0. -/
theorem outWritesTheLowByte : Obligations.OutWritesTheLowByte := by
  intro s wf
  have data : s.link.reg dataReg = s.reg 0 := s.link_reg_ne (by decide)
  refine ⟨_, execTrap_out wf, ?_, s.link_reg_self, link_sameRegsExcept s, rfl, rfl, fun _ => rfl, ⟨rfl, rfl, rfl⟩,
    rfl, rfl, rfl⟩
  rw [data]
  rfl

/-- Settles O33: `configWf` keeps the other vectors away from 0x25, and the routine touches the listed fields only. -/
theorem haltWritesTheNoticeAndStops : Obligations.HaltWritesTheNoticeAndStops := fun s wf =>
  ⟨_, execTrap_halt wf, rfl, rfl, s.link_reg_self, link_sameRegsExcept s, rfl, rfl, fun _ => rfl, ⟨rfl, rfl, rfl⟩, rfl,
    rfl⟩

theorem exec_trap_unknown {s : State} {vect : Word} (unknown : ¬ isKnownVector s vect) :
    exec (.trap vect) s = .fault (.fatal (.unknownTrapVector vect) s.link) := by
  simp only [isKnownVector, not_or] at unknown
  obtain ⟨getc, out, puts, ins, putsp, halt⟩ := unknown
  rw [exec, execTrap, if_neg getc, if_neg out, if_neg puts, if_neg ins, if_neg putsp, if_neg halt, raiseFatal]

/-- Settles O34: the error is raised on the linked state. -/
theorem unknownTrapVectorIsFatal : Obligations.UnknownTrapVectorIsFatal := fun s _ unknown =>
  ⟨_, exec_trap_unknown unknown, s.link_reg_self, link_sameRegsExcept s, rfl, rfl, fun _ => rfl, ⟨rfl, rfl, rfl⟩,
    ⟨rfl, rfl, rfl⟩, rfl⟩

/-- Settles O35: both raise their error on the state they ran in. -/
theorem rtiAndResAreFatal : Obligations.RtiAndResAreFatal := fun _ => ⟨rfl, rfl⟩

end Sys2Proof.Machine
end

section
/-! PROOF. The string routines (R134, R136, R153, R155): what their step answers, in terms of the spec's loop, and that
an endless loop is one whose routine is held. -/

namespace Sys2Proof.Machine

/-! ### The loop and the step of a routine -/

/-- The loop of the routine from the address in R0 comes to no zero word and to no word without a meaning. -/
def Endless (r : StringRoutine) (s : State) : Prop :=
  (∀ u, ¬ WalkEnds (routineWrites s.cfg r) (s.reg dataReg) s u) ∧
    ¬ WalkHasNoMeaning (routineWrites s.cfg r) (s.reg dataReg) s

/-- The whole of what a string routine can do, in the spec's terms. -/
theorem runString_outcome (r : StringRoutine) (s : State) :
    (∃ t, runString r s = .next (t.setRoutine none) ∧ WalkFrame s t ∧
      WalkEnds (routineWrites s.cfg r) (s.reg dataReg) s t) ∨
    (∃ t, runString r s = .next (t.setRoutine (some r)) ∧ WalkFrame s t ∧ Endless r s ∧ s.kbdSupply ≠ .ended ∧
      WalksTo (routineWrites s.cfg r) (s.reg dataReg) s (s.reg dataReg) t ∧
      s.console.length + 65536 ≤ t.console.length) ∨
    (runString r s = .refused .putspZeroLow ∧ r = .putsp ∧ s.cfg.putspZeroLow = .refuse ∧
      WalkHasNoMeaning (routineWrites s.cfg r) (s.reg dataReg) s) := by
  rw [← stringBytes_eq]
  rcases runString_cases r s with ends | ⟨t, e, frame, supply, console, walk, endless⟩ | refused
  · exact .inl ends
  · exact .inr (.inl ⟨t, e, frame, by rwa [Endless, ← stringBytes_eq], supply, walk, console⟩)
  · exact .inr (.inr refused)

theorem runString_ends {r : StringRoutine} {s t : State}
    (ends : WalkEnds (routineWrites s.cfg r) (s.reg dataReg) s t) : runString r s = .next (t.setRoutine none) :=
  runString_of_walkEnds (by rwa [stringBytes_eq])

theorem runString_noMeaning {r : StringRoutine} {s : State}
    (noMeaning : WalkHasNoMeaning (routineWrites s.cfg r) (s.reg dataReg) s) :
    runString r s = .refused .putspZeroLow ∧ r = .putsp ∧ s.cfg.putspZeroLow = .refuse := by
  rw [← stringBytes_eq] at noMeaning
  have e := runString_of_noMeaning noMeaning
  obtain ⟨_, _, -, -, unwritten⟩ := noMeaning
  exact ⟨e, stringBytes_none unwritten⟩

theorem runString_endless {r : StringRoutine} {s : State} (endless : Endless r s) :
    ∃ t, runString r s = .next (t.setRoutine (some r)) ∧
      WalksTo (routineWrites s.cfg r) (s.reg dataReg) s (s.reg dataReg) t ∧
      s.console.length + 65536 ≤ t.console.length := by
  rcases runString_outcome r s with ⟨t, -, -, ends⟩ | ⟨t, e, -, -, -, walk, console⟩ | ⟨-, -, -, noMeaning⟩
  · exact absurd ends (endless.1 t)
  · exact ⟨t, e, walk, console⟩
  · exact absurd noMeaning endless.2

/-- With no more characters to arrive than those known the loop is not endless. -/
theorem walk_stops_of_ended {s : State} (r : StringRoutine) (supply : s.kbdSupply = .ended) :
    (∃ u, WalkEnds (routineWrites s.cfg r) (s.reg dataReg) s u) ∨
      WalkHasNoMeaning (routineWrites s.cfg r) (s.reg dataReg) s := by
  rcases runString_outcome r s with ⟨t, -, -, ends⟩ | ⟨_, -, -, -, more, -⟩ | ⟨-, -, -, noMeaning⟩
  · exact .inl ⟨t, ends⟩
  · exact absurd supply more
  · exact .inr noMeaning

/-- The next state of a routine is one its loop comes to, but for the routine held. -/
theorem runString_next {r : StringRoutine} {s t : State} (h : runString r s = .next t) :
    ∃ u o, t = u.setRoutine o ∧ WalkFrame s u := by
  rcases runString_outcome r s with ⟨u, e, frame, -⟩ | ⟨u, e, frame, -⟩ | ⟨e, -⟩
  · exact ⟨u, none, (Host.Outcome.next.inj (e.symm.trans h)).symm, frame⟩
  · exact ⟨u, some r, (Host.Outcome.next.inj (e.symm.trans h)).symm, frame⟩
  · exact nomatch e.symm.trans h

theorem runString_next_of_meaning {r : StringRoutine} {s : State}
    (meaning : ¬ WalkHasNoMeaning (routineWrites s.cfg r) (s.reg dataReg) s) : ∃ t, runString r s = .next t := by
  rcases runString_outcome r s with ⟨u, e, -⟩ | ⟨u, e, -⟩ | ⟨-, -, -, noMeaning⟩
  · exact ⟨_, e⟩
  · exact ⟨_, e⟩
  · exact absurd noMeaning meaning

theorem runString_ne_fault (r : StringRoutine) (s : State) (f : Fault) : runString r s ≠ .fault f := by
  rcases runString_outcome r s with ⟨u, e, -⟩ | ⟨u, e, -⟩ | ⟨e, -⟩ <;> rw [e] <;> nofun

theorem runString_refused {r : StringRoutine} {s : State} {x : Refusal} (h : runString r s = .refused x) :
    x = .putspZeroLow ∧ r = .putsp ∧ s.cfg.putspZeroLow = .refuse := by
  rcases runString_outcome r s with ⟨u, e, -⟩ | ⟨u, e, -⟩ | ⟨e, isPutsp, refuse, -⟩
  · exact nomatch e.symm.trans h
  · exact nomatch e.symm.trans h
  · exact ⟨(Host.Outcome.refused.inj (e.symm.trans h)).symm, isPutsp, refuse⟩

/-! ### The TRAP of a routine -/

theorem exec_string {s : State} (wf : configWf s.cfg = true) (r : StringRoutine) :
    exec (.trap (routineVector s.cfg r)) s = runString r s.link := by
  cases r with
  | puts => exact execTrap_puts wf
  | putsp => exact execTrap_putsp wf

/-- The link leaves the address the loop starts from. -/
theorem link_reg_dataReg (s : State) : s.link.reg dataReg = s.reg 0 :=
  s.link_reg_ne (by decide)

/-- But for the link a string routine changes no register, nor COND, `pc`, nor any cell outside the keyboard registers. -/
theorem runString_link_frame {r : StringRoutine} {s t : State} (h : runString r s.link = .next t) :
    t.reg 7 = s.pc ∧ SameRegsExcept [7] s t ∧ t.cond = s.cond ∧ t.pc = s.pc ∧ t.run = s.run ∧ t.cfg = s.cfg ∧
      SameMemoryButKeyboard s t := by
  obtain ⟨u, o, rfl, frame⟩ := runString_next h
  exact ⟨(frame.regs 7).trans s.link_reg_self, fun q other => (frame.regs q).trans (link_sameRegsExcept s q other),
    frame.cond, frame.pc, frame.run, frame.cfg, frame.mem⟩

/-- What either routine does when its TRAP is executed. -/
theorem exec_string_spec {s : State} (wf : configWf s.cfg = true) (r : StringRoutine) :
    (∀ u, WalkEnds (routineWrites s.cfg r) (s.reg 0) s.link u →
      exec (.trap (routineVector s.cfg r)) s = .next (u.setRoutine none)) ∧
    (WalkHasNoMeaning (routineWrites s.cfg r) (s.reg 0) s.link →
      exec (.trap (routineVector s.cfg r)) s = .refused .putspZeroLow ∧ s.cfg.putspZeroLow = .refuse) ∧
    ((∀ u, ¬ WalkEnds (routineWrites s.cfg r) (s.reg 0) s.link u) →
      ¬ WalkHasNoMeaning (routineWrites s.cfg r) (s.reg 0) s.link →
      ∃ u, exec (.trap (routineVector s.cfg r)) s = .next (u.setRoutine (some r)) ∧
        WalksTo (routineWrites s.cfg r) (s.reg 0) s.link (s.reg 0) u ∧
        s.console.length + 65536 ≤ u.console.length) ∧
    (s.kbdSupply = .ended → (∃ u, WalkEnds (routineWrites s.cfg r) (s.reg 0) s.link u) ∨
      WalkHasNoMeaning (routineWrites s.cfg r) (s.reg 0) s.link) ∧
    (¬ WalkHasNoMeaning (routineWrites s.cfg r) (s.reg 0) s.link →
      ∃ t, exec (.trap (routineVector s.cfg r)) s = .next t ∧
        t.reg 7 = s.pc ∧ SameRegsExcept [7] s t ∧ t.cond = s.cond ∧ t.pc = s.pc ∧ t.run = s.run ∧ t.cfg = s.cfg ∧
        SameMemoryButKeyboard s t) := by
  rw [exec_string wf r, ← link_reg_dataReg]
  refine ⟨fun u => runString_ends (s := s.link), fun noMeaning => ?_,
    fun noEnd meaning => runString_endless (s := s.link) ⟨noEnd, meaning⟩, walk_stops_of_ended (s := s.link) r,
    fun meaning => ?_⟩
  · obtain ⟨e, -, refuse⟩ := runString_noMeaning (s := s.link) noMeaning
    exact ⟨e, refuse⟩
  · obtain ⟨t, e⟩ := runString_next_of_meaning (s := s.link) meaning
    exact ⟨t, e, runString_link_frame e⟩

/-- Every word has a meaning in PUTS. -/
theorem puts_has_meaning (a : Addr) (s : State) : ¬ WalkHasNoMeaning putsWrites a s := by
  rintro ⟨_, _, -, -, unwritten⟩
  cases unwritten

/-- Settles O29: PUTS is the routine to which every word has a meaning. -/
theorem putsRunsTheLoop : Obligations.PutsRunsTheLoop := by
  intro s wf
  obtain ⟨ends, -, endless, stops, frame⟩ := exec_string_spec wf .puts
  have meaning := puts_has_meaning (s.reg 0) s.link
  exact ⟨ends, fun noEnd => endless noEnd meaning, fun supply => (stops supply).resolve_right meaning, frame meaning⟩

/-- Settles O30: `exec_string_spec` for PUTSP. -/
theorem putspRunsTheLoop : Obligations.PutspRunsTheLoop := fun _ wf => exec_string_spec wf .putsp

/-! ### Plain strings -/

/-- The TRAP of a routine on a string away from `KBSR_ADDR`, each of whose words writes the bytes `wr` gives. -/
theorem exec_string_plain {s : State} {n : Nat} (wf : configWf s.cfg = true) (r : StringRoutine)
    (wr : Word → List Byte) (away : ∀ k, k ≤ n → s.reg 0 + BitVec.ofNat 16 k ≠ s.cfg.kbsrAddr)
    (words : ∀ k, k < n → s.mem.read (s.reg 0 + BitVec.ofNat 16 k) ≠ 0x0000#16 ∧
      stringBytes s.cfg r (s.mem.read (s.reg 0 + BitVec.ofNat 16 k)) =
        some (wr (s.mem.read (s.reg 0 + BitVec.ofNat 16 k))))
    (zero : s.mem.read (s.reg 0 + BitVec.ofNat 16 n) = 0x0000#16) :
    ∃ t, exec (.trap (routineVector s.cfg r)) s = .next t ∧
      t.console = s.console ++ (List.range n).flatMap (fun k => wr (s.mem.read (s.reg 0 + BitVec.ofNat 16 k))) ∧
      SameMemory s t ∧ SameKeyboard s t ∧ t.routine = none := by
  rw [← link_reg_dataReg] at away words zero ⊢
  exact ⟨_, (exec_string wf r).trans (runString_plain r wr s.link away (fun k hk => (words k hk).1)
    (fun k hk => (words k hk).2) zero), rfl, fun _ => rfl, ⟨rfl, rfl, rfl⟩, rfl⟩

/-- Settles O31: PUTS writes the low byte of each word of a plain string. -/
theorem putsWritesThePlainString : Obligations.PutsWritesThePlainString := by
  intro s n wf away words zero
  rw [List.map_eq_flatMap]
  exact exec_string_plain wf .puts (fun w => [w.extractLsb' 0 8]) away (fun k hk => ⟨words k hk, rfl⟩) zero

theorem ne_zero_of_lowByte {w : Word} (low : lowByte w ≠ 0x00#8) : w ≠ 0x0000#16 := by
  rintro rfl
  exact low rfl

theorem putspBytes_of_lowByte {w : Word} (zeroLow : PutspZeroLow) (low : lowByte w ≠ 0x00#8) :
    putspBytes zeroLow w = some (lowByte w :: if highByte w = 0x00#8 then [] else [highByte w]) := by
  simp only [putspBytes, if_pos low, ite_not]

/-- Settles O32: a word with a non-zero low byte is not zero, and its high byte is written where it is not zero. -/
theorem putspWritesThePackedString : Obligations.PutspWritesThePackedString := by
  intro s n wf away low zero
  exact exec_string_plain wf .putsp (fun w => lowByte w :: if highByte w = 0x00#8 then [] else [highByte w]) away
    (fun k hk => ⟨ne_zero_of_lowByte (low k hk), putspBytes_of_lowByte _ (low k hk)⟩) zero

/-! ### The steps of a machine in a routine -/

/-- Settles O46: the step of a machine in a routine is the routine's, and its next state is one the loop comes to. -/
theorem stringRoutineGoesOnInTheNextStep : Obligations.StringRoutineGoesOnInTheNextStep := by
  intro s r running held
  rw [step_in_routine running held]
  refine ⟨fun noEnd meaning => runString_endless ⟨noEnd, meaning⟩, fun u => runString_ends, runString_noMeaning,
    fun t h => ?_⟩
  obtain ⟨u, o, rfl, frame⟩ := runString_next h
  exact ⟨⟨fun q _ => frame.regs q, frame.cond, frame.pc⟩, frame.run.trans running, frame.cfg, frame.mem⟩

/-- Where a loop has come to, it is endless if it was. -/
theorem Endless.of_walksTo {r : StringRoutine} {s t : State} (endless : Endless r s) (frame : WalkFrame s t)
    (walk : WalksTo (routineWrites s.cfg r) (s.reg dataReg) s (s.reg dataReg) t) : Endless r t := by
  rw [Endless, frame.cfg, frame.regs]
  refine ⟨fun u => ?_, ?_⟩
  · rintro ⟨b, w, rest, zero, e⟩
    exact endless.1 u ⟨b, w, walk.trans rest, zero, e⟩
  · rintro ⟨b, w, rest, nonzero, unwritten⟩
    exact endless.2 ⟨b, w, walk.trans rest, nonzero, unwritten⟩

/-- The loop does not look at the routine the machine is in. -/
theorem Endless.setRoutine {r : StringRoutine} {s : State} (endless : Endless r s) (o : Option StringRoutine) :
    Endless r (s.setRoutine o) := by
  have back : (s.setRoutine o).setRoutine s.routine = s := rfl
  refine ⟨fun u => ?_, ?_⟩
  · rintro ⟨b, w, walk, zero, -⟩
    refine endless.1 _ ⟨b, w.setRoutine s.routine, back ▸ walk.setRoutine s.routine, ?_, rfl⟩
    rw [memRead_fst, afterRead_setRoutine]
    exact zero
  · rintro ⟨b, w, walk, nonzero, unwritten⟩
    refine endless.2 ⟨b, w.setRoutine s.routine, back ▸ walk.setRoutine s.routine, ?_⟩
    rw [memRead_fst, afterRead_setRoutine]
    exact ⟨nonzero, unwritten⟩

/-- A routine is held after its step only where its loop goes on for ever. -/
theorem runString_held {r q : StringRoutine} {s t : State} (h : runString r s = .next t) (held : t.routine = some q) :
    Endless q t := by
  rcases runString_outcome r s with ⟨u, e, -⟩ | ⟨u, e, frame, endless, -, walk, -⟩ | ⟨e, -⟩
  · cases e.symm.trans h
    cases held
  · cases e.symm.trans h
    cases held
    exact (endless.of_walksTo frame walk).setRoutine _
  · exact nomatch e.symm.trans h

end Sys2Proof.Machine
end

section
/-! PROOF. What every instruction keeps and what it may change (R21, R25, R28, R41), read off the list of its outcomes. -/

namespace Sys2Proof.Machine

/-! ### What each outcome says about the instruction -/

theorem exec_fault_cases {i : Instr} {s : State} {f : Fault} (h : exec i s = .fault f) :
    (i = .rti ∧ f = .fatal (.illegalOpcode .rti) s) ∨ (i = .res ∧ f = .fatal (.illegalOpcode .res) s) ∨
    (∃ vect, i = .trap vect ∧ ¬ isKnownVector s vect ∧ f = .fatal (.unknownTrapVector vect) s.link) := by
  cases runs_of_exec h with
  | rti => exact .inl ⟨rfl, rfl⟩
  | res => exact .inr (.inl ⟨rfl, rfl⟩)
  | unknown none_of_six => exact .inr (.inr ⟨_, rfl, none_of_six, rfl⟩)
  | string r walk => exact absurd walk (runString_ne_fault r _ f)

theorem exec_refused {i : Instr} {s : State} {x : Refusal} (h : exec i s = .refused x) :
    x = .putspZeroLow ∧ i = .trap (zext8 s.cfg.trapPutsp) ∧ s.cfg.putspZeroLow = .refuse := by
  cases runs_of_exec h with
  | string r walk =>
    obtain ⟨isZeroLow, rfl, refuse⟩ := runString_refused walk
    exact ⟨isZeroLow, rfl, refuse⟩

theorem exec_result {i : Instr} {dr : Reg} (s : State) (dest : resultReg i = some dr) :
    ∃ v, exec i s = .next ((afterReads s (readAddrs s i)).writeResult dr v) := by
  cases i <;> cases dest <;> exact ⟨_, rfl⟩

/-- A machine that enters a string routine does so in the step of the routine. -/
theorem exec_held {i : Instr} {s t : State} {q : StringRoutine} (h : exec i s = .next t) (idle : s.routine = none)
    (held : t.routine = some q) : ∃ r, runString r s.link = .next t := by
  cases runs_of_exec h with
  | string r walk => exact ⟨r, walk⟩
  | result | store =>
    have still : (afterReads s (readAddrs s i)).routine = some q := held
    rw [afterReads_routine, idle] at still
    cases still
  | branch | jump | call | callRegister | wait | key | out | halt => exact nomatch idle.symm.trans held

/-! ### `pc` -/

/-- R25's table. -/
def pcAfter (s : State) : Instr → Word
  | .br n z p off => if branchTaken n z p s.cond then s.pc + off else s.pc
  | .jmp baseR => s.reg baseR
  | .jsr off => s.pc + off
  | .jsrr baseR => if baseR = 7 then s.pc else s.reg baseR
  | _ => s.pc

theorem exec_pc {i : Instr} {s t : State} (h : exec i s = .next t) (done : ¬ Waits s i) : t.pc = pcAfter s i := by
  cases runs_of_exec h with
  | result v dest => cases i <;> cases dest <;> exact afterReads_pc s _
  | store source target => cases i <;> cases source <;> exact afterReads_pc s _
  | wait reads empty => exact absurd ⟨_, rfl, reads, empty⟩ done
  | string r walk =>
    obtain ⟨u, o, rfl, frame⟩ := runString_next walk
    exact frame.pc
  | branch | jump | call | callRegister | key | out | halt => rfl

/-- Settles O39: `exec_pc` is the table. -/
theorem pcAfterEveryInstruction : Obligations.PcAfterEveryInstruction := by
  intro i s t h done
  have pc := exec_pc h done
  refine ⟨?_, ?_, ?_, ?_, fun notBr notJmp notJsr notJsrr => ?_⟩
  · rintro n z p off rfl
    exact pc
  · rintro baseR rfl
    exact pc
  · rintro off rfl
    exact pc
  · rintro baseR rfl
    exact pc
  · cases i with
    | br n z p off => exact absurd rfl (notBr n z p off)
    | jmp baseR => exact absurd rfl (notJmp baseR)
    | jsr off => exact absurd rfl (notJsr off)
    | jsrr baseR => exact absurd rfl (notJsrr baseR)
    | _ => exact pc

/-! ### General registers -/

theorem destRegs_of_result {i : Instr} {dr : Reg} (s : State) (dest : resultReg i = some dr) : destRegs s i = [dr] := by
  cases i <;> cases dest <;> rfl

/-- A TRAP may write R7. -/
theorem SameRegsExcept.trap {s t : State} (same : SameRegsExcept [7] s t) (vect : Word) :
    SameRegsExcept (destRegs s (.trap vect)) s t := by
  intro r other
  refine same r fun isLink => other ?_
  rw [destRegs]
  split
  · exact List.mem_cons_of_mem _ isLink
  · exact isLink

theorem exec_sameRegsExcept {i : Instr} {s t : State} (h : exec i s = .next t) :
    SameRegsExcept (destRegs s i) s t := by
  cases runs_of_exec h with
  | result v dest =>
    obtain ⟨⟨-, -, regs, -⟩, -⟩ := afterReads_writeResult s (readAddrs s i) _ v
    rwa [destRegs_of_result s dest]
  | store => exact fun r _ => afterReads_reg s _ r
  | call | callRegister => exact link_sameRegsExcept s
  | key echo reads =>
    rw [destRegs, if_pos reads]
    exact deliverKey_sameRegsExcept _ _
  | out | halt => exact SameRegsExcept.trap (link_sameRegsExcept s) _
  | string r walk =>
    obtain ⟨-, regs, -⟩ := runString_link_frame walk
    exact regs.trap _
  | branch | jump | wait => exact fun _ _ => rfl

/-- Settles O51: the registers by `exec_sameRegsExcept`; a read trap that waits only lets time pass. -/
theorem registersChangeOnlyWhereListed : Obligations.RegistersChangeOnlyWhereListed := by
  intro i s t wf h
  refine ⟨exec_sameRegsExcept h, ?_⟩
  rintro ⟨vect, rfl, reads, empty⟩
  cases (exec_wait wf reads empty).symm.trans h
  exact fun _ _ => rfl

/-! ### Memory -/

/-- A routine whose loop does not come to `KBSR_ADDR` leaves the memory. -/
theorem runString_mem_of_away {r : StringRoutine} {s t : State} (h : runString r s = .next t)
    (away : ∀ u, ¬ WalksTo (routineWrites s.cfg r) (s.reg dataReg) s s.cfg.kbsrAddr u) : t.mem = s.mem := by
  rcases runString_outcome r s with ⟨u, e, -, b, w, walk, -, rfl⟩ | ⟨u, e, -, -, -, walk, -⟩ | ⟨e, -⟩
  · cases e.symm.trans h
    obtain ⟨memory, last⟩ := walk.mem_of_away away
    exact (congrArg State.mem last).trans memory
  · cases e.symm.trans h
    exact (walk.mem_of_away away).1
  · exact nomatch e.symm.trans h

/-- A cell that an instruction does not store to keeps its word, but for what reads at `KBSR_ADDR` do to the two keyboard
registers. -/
theorem exec_mem_read {i : Instr} {s t : State} (h : exec i s = .next t) {a : Addr} (other : storeTarget s i ≠ some a)
    (kept : (a ≠ s.cfg.kbsrAddr ∧ a ≠ s.cfg.kbdrAddr) ∨ ¬ readsStatus s i) : t.mem.read a = s.mem.read a := by
  have read : (afterReads s (readAddrs s i)).mem.read a = s.mem.read a := by
    rcases kept with ⟨status, data⟩ | away
    · exact (afterReads_frame s _).mem a status data
    · rw [afterReads_plain (readAddrs_away away)]
  cases runs_of_exec h with
  | result => exact read
  | store source target =>
    rw [State.storeCell_mem, Memory.read_write_ne _ _ fun isTarget => other (by rw [target, isTarget]), read]
  | string r walk =>
    rcases kept with ⟨status, data⟩ | away
    · obtain ⟨u, o, rfl, frame⟩ := runString_next walk
      exact frame.mem a status data
    · refine congrArg (Memory.read · a) (runString_mem_of_away (s := s.link) walk fun u comes => away ⟨r, u, rfl, ?_⟩)
      rwa [link_reg_dataReg] at comes
  | branch | jump | call | callRegister | wait | key | out | halt => rfl

/-- Settles O52: `exec_mem_read` for its two ways of keeping a cell. -/
theorem memoryChangesOnlyByStoresAndPolls : Obligations.MemoryChangesOnlyByStoresAndPolls := fun _ _ _ h _ other =>
  ⟨fun status data => exec_mem_read h other (.inl ⟨status, data⟩), fun away => exec_mem_read h other (.inr away)⟩

/-! ### COND -/

theorem exec_key {s : State} {vect : Word} {c : Byte} {rest : List Byte} (wf : configWf s.cfg = true)
    (reads : isReadVector s vect) (key : s.kbdArrive.kbdQueue = c :: rest) :
    ∃ echo, exec (.trap vect) s = .next ((deliverKey c (s.kbdArrive.setQueue rest)).conOut echo) := by
  rcases reads with rfl | rfl
  · exact ⟨[], ((execTrap_getc s).trans (trapGetcRoutine_of_key key)).trans (by rw [State.conOut_nil])⟩
  · exact ⟨[c], (execTrap_in wf).trans (trapInRoutine_of_key key)⟩

theorem exec_result_cond {i : Instr} {s t : State} {dr : Reg} (h : exec i s = .next t) (dest : resultReg i = some dr) :
    t.cond = condOf (t.reg dr) := by
  obtain ⟨v, e⟩ := exec_result s dest
  cases e.symm.trans h
  rw [State.writeResult_cond, State.writeResult_reg_self]

theorem exec_key_cond {vect : Word} {s t : State} (wf : configWf s.cfg = true) (h : exec (.trap vect) s = .next t)
    (reads : isReadVector s vect) (pending : ¬ noKeyPending s) : t.cond = condOf (t.reg 0) := by
  obtain ⟨c, rest, key⟩ := List.exists_cons_of_ne_nil pending
  obtain ⟨echo, e⟩ := exec_key wf reads key
  cases e.symm.trans h
  rw [State.conOut_reg, deliverKey_reg_zero]
  rfl

theorem exec_keeps_cond {i : Instr} {s t : State} (h : exec i s = .next t) (noResult : resultReg i = none)
    (noKey : ∀ vect, i = .trap vect → isReadVector s vect → noKeyPending s) : t.cond = s.cond := by
  cases runs_of_exec h with
  | result v dest => exact nomatch noResult.symm.trans dest
  | store => exact afterReads_cond s _
  | key echo reads key => exact nomatch (noKey _ rfl reads).symm.trans key
  | string r walk =>
    obtain ⟨u, o, rfl, frame⟩ := runString_next walk
    exact frame.cond
  | branch | jump | call | callRegister | wait | out | halt => rfl

theorem exec_fault_keeps_cond {i : Instr} {s u : State} {reason : FatalReason}
    (h : exec i s = .fault (.fatal reason u)) : u.cond = s.cond := by
  rcases exec_fault_cases h with ⟨-, e⟩ | ⟨-, e⟩ | ⟨_, -, -, e⟩ <;> cases e <;> rfl

theorem memRead_withCond (s : State) (c : BitVec 3) (a : Addr) :
    memRead (s.withCond c) a = ((memRead s a).1, (memRead s a).2.withCond c) := by
  simp [memRead, afterRead_withCond]

theorem eaIndirect_withCond (s : State) (c : BitVec 3) (off : Word) :
    eaIndirect (s.withCond c) off = ((eaIndirect s off).1, (eaIndirect s off).2.withCond c) :=
  memRead_withCond s c (eaPcRel s off)

/-- A load sets COND whatever it was. -/
theorem loadFrom_withCond (dr : Reg) (ea : Addr) (s : State) (c : BitVec 3) :
    loadFrom dr ea (s.withCond c) = loadFrom dr ea s := by
  rw [loadFrom, memRead_withCond]
  rfl

theorem runString_withCond (r : StringRoutine) (s : State) (c : BitVec 3) :
    runString r (s.withCond c) = mapOutcome (·.withCond c) (runString r s) := by
  have walk := walkString_withCond (stringBytes s.cfg r) (walkBound s) (s.reg dataReg) s c
  rw [runString_of_walk (s := s.withCond c) walk, runString]
  exact Walk.outcome_map (fun _ _ => rfl) r _

/-- The outcome `o'` with another COND before is `o`, a next state whose COND the instruction set, or `o` but for COND. -/
def SameButCond (c : BitVec 3) (o o' : Host.Outcome State Fault Refusal) : Prop :=
  (∃ t, o = .next t ∧ o' = .next t) ∨ o' = mapOutcome (·.withCond c) o

theorem trapGetcRoutine_withCond (s : State) (c : BitVec 3) :
    SameButCond c (trapGetcRoutine s) (trapGetcRoutine (s.withCond c)) := by
  unfold trapGetcRoutine
  rw [kbdRead_eq_kbdPoll, kbdRead_eq_kbdPoll, kbdPoll_withCond]
  rcases s.kbdPoll with ⟨_ | k, t⟩
  · exact .inr rfl
  · exact .inl ⟨_, rfl, rfl⟩

theorem trapInRoutine_withCond (s : State) (c : BitVec 3) :
    SameButCond c (trapInRoutine s) (trapInRoutine (s.withCond c)) := by
  unfold trapInRoutine
  rw [kbdRead_eq_kbdPoll, kbdRead_eq_kbdPoll, kbdPoll_withCond]
  rcases s.kbdPoll with ⟨_ | k, t⟩
  · exact .inr rfl
  · exact .inl ⟨_, rfl, rfl⟩

theorem execTrap_withCond (vect : Word) (s : State) (c : BitVec 3) :
    SameButCond c (execTrap vect s) (execTrap vect (s.withCond c)) := by
  unfold execTrap
  rw [withCond_cfg]
  split
  · exact trapGetcRoutine_withCond s c
  split
  · exact .inr rfl
  split
  · exact .inr (runString_withCond .puts s.link c)
  split
  · exact trapInRoutine_withCond s c
  split
  · exact .inr (runString_withCond .putsp s.link c)
  split <;> exact .inr rfl

/-- Only BR reads COND (R28). -/
theorem exec_withCond {i : Instr} (notBr : ∀ n z p off, i ≠ .br n z p off) (s : State) (c : BitVec 3) :
    SameButCond c (exec i s) (exec i (s.withCond c)) := by
  cases i with
  | br n z p off => exact absurd rfl (notBr n z p off)
  | ld dr off => exact .inl ⟨_, rfl, congrArg Host.Outcome.next (loadFrom_withCond dr (eaPcRel s off) s c)⟩
  | ldr dr baseR off => exact .inl ⟨_, rfl, congrArg Host.Outcome.next (loadFrom_withCond dr (eaBase s baseR off) s c)⟩
  | ldi dr off =>
    refine .inl ⟨_, rfl, ?_⟩
    rw [exec, execLdi, eaIndirect_withCond, loadFrom_withCond]
  | sti sr off =>
    refine .inr ?_
    rw [exec, execSti, eaIndirect_withCond]
    rfl
  | trap vect => exact execTrap_withCond vect s c
  | addr | addi | andr | andi | not | lea => exact .inl ⟨_, rfl, rfl⟩
  | st | str | jmp | jsr | jsrr | rti | res => exact .inr rfl

/-- Settles O40: who writes COND and with what, a fatal error, and `exec_withCond` for who reads it. -/
theorem condIsWrittenByResultsAndReadByBranches : Obligations.CondIsWrittenByResultsAndReadByBranches := by
  refine ⟨fun i s t wf h => ⟨fun dr => exec_result_cond h, ?_, exec_keeps_cond h⟩,
    fun i s u reason => exec_fault_keeps_cond, fun i s c notBr => ?_⟩
  · rintro vect rfl
    exact exec_key_cond wf h
  · rcases exec_withCond notBr s c with ⟨t, e, e'⟩ | e' <;> rw [e']
    · rw [e]
      refine ⟨?_, nofun, nofun⟩
      rintro _ ⟨⟩
      exact ⟨t.cond, rfl⟩
    · refine ⟨fun t e => ⟨c, ?_⟩, fun reason u e => ?_, fun r e => ?_⟩ <;> rw [e] <;> rfl

end Sys2Proof.Machine
end

section
/-! PROOF. What every step keeps: the invariant (R26, R130), the parameters (R8), the console (R131) and the order of the
keyboard stream (R46); what it may raise (R160, R161) and what `Status` reports after it (R155). -/

namespace Sys2Proof.Machine

/-! ### The frame of a step -/

/-- What every operation of the machine keeps: the parameters, the canonical memory, the console but for what is added, and
the keyboard stream but for what is taken off its front. -/
structure StepFrame (s t : State) : Prop where
  cfg : t.cfg = s.cfg
  wf : s.mem.wf = true → t.mem.wf = true
  console : s.console <+: t.console
  stream : TakenInOrder s t

theorem StepFrame.trans {s t u : State} (h : StepFrame s t) (h' : StepFrame t u) : StepFrame s u where
  cfg := h'.cfg.trans h.cfg
  wf wf := h'.wf (h.wf wf)
  console := h.console.trans h'.console
  stream := h.stream.trans h'.stream

theorem WalkFrame.stepFrame {s t : State} (h : WalkFrame s t) : StepFrame s t :=
  ⟨h.cfg, h.wf, h.console, h.stream⟩

/-- An operation that touches neither parameters nor keyboard, keeps the canonical memory and adds to the console. -/
theorem StepFrame.of_sameKeyboard {s t : State} (cfg : t.cfg = s.cfg) (wf : s.mem.wf = true → t.mem.wf = true)
    (console : s.console <+: t.console) (keyboard : SameKeyboard s t) : StepFrame s t :=
  ⟨cfg, wf, console, .of_same keyboard⟩

theorem setPc_stepFrame (s : State) (v : Word) : StepFrame s (s.setPc v) :=
  .of_sameKeyboard rfl id (List.prefix_refl _) ⟨rfl, rfl, rfl⟩

theorem link_stepFrame (s : State) : StepFrame s s.link :=
  .of_sameKeyboard rfl id (List.prefix_refl _) ⟨rfl, rfl, rfl⟩

theorem writeResult_stepFrame (s : State) (dr : Reg) (v : Word) : StepFrame s (s.writeResult dr v) :=
  .of_sameKeyboard rfl id (List.prefix_refl _) ⟨rfl, rfl, rfl⟩

theorem storeCell_stepFrame (s : State) (ea : Addr) (v : Word) : StepFrame s (s.storeCell ea v) :=
  .of_sameKeyboard rfl (Memory.write_wf ea v) (List.prefix_refl _) ⟨rfl, rfl, rfl⟩

theorem conOut_stepFrame (s : State) (bs : List Byte) : StepFrame s (s.conOut bs) :=
  .of_sameKeyboard rfl id (List.prefix_append _ _) ⟨rfl, rfl, rfl⟩

theorem setRoutine_stepFrame (s : State) (o : Option StringRoutine) : StepFrame s (s.setRoutine o) :=
  .of_sameKeyboard rfl id (List.prefix_refl _) ⟨rfl, rfl, rfl⟩

theorem withRun_stepFrame (s : State) (b : Bool) : StepFrame s (s.withRun b) :=
  .of_sameKeyboard rfl id (List.prefix_refl _) ⟨rfl, rfl, rfl⟩

/-- One keyboard operation. -/
theorem kbdPoll_stepFrame (s : State) : StepFrame s s.kbdPoll.2 := by
  have stream := TakenInOrder.kbdPoll s
  rcases kbdPoll_cases s with ⟨-, e⟩ | ⟨c, rest, -, e⟩ <;> rw [e] at stream ⊢ <;>
    exact ⟨rfl, id, List.prefix_refl _, stream⟩

theorem kbdArrive_stepFrame {s : State} (empty : noKeyPending s) : StepFrame s s.kbdArrive := by
  have frame := kbdPoll_stepFrame s
  rcases kbdPoll_cases s with ⟨-, e⟩ | ⟨_, _, key, -⟩
  · rwa [e] at frame
  · exact nomatch empty.symm.trans key

theorem kbdArrive_setQueue_stepFrame {s : State} {c : Byte} {rest : List Byte}
    (key : s.kbdArrive.kbdQueue = c :: rest) : StepFrame s (s.kbdArrive.setQueue rest) := by
  have frame := kbdPoll_stepFrame s
  rcases kbdPoll_cases s with ⟨empty, -⟩ | ⟨_, _, key', e⟩
  · exact nomatch empty.symm.trans key
  · cases key.symm.trans key'
    rwa [e] at frame

theorem runString_stepFrame {r : StringRoutine} {s t : State} (h : runString r s = .next t) : StepFrame s t := by
  obtain ⟨u, o, rfl, frame⟩ := runString_next h
  exact frame.stepFrame.trans (setRoutine_stepFrame u o)

theorem exec_stepFrame {i : Instr} {s t : State} (h : exec i s = .next t) : StepFrame s t := by
  cases runs_of_exec h with
  | result v => exact (afterReads_frame s _).stepFrame.trans (writeResult_stepFrame _ _ v)
  | store => exact (afterReads_frame s _).stepFrame.trans (storeCell_stepFrame _ _ _)
  | branch | jump => exact setPc_stepFrame s _
  | call | callRegister => exact (link_stepFrame s).trans (setPc_stepFrame _ _)
  | wait reads empty => exact (kbdArrive_stepFrame empty).trans (setPc_stepFrame _ _)
  | key echo reads key =>
    exact (((kbdArrive_setQueue_stepFrame key).trans (link_stepFrame _)).trans (writeResult_stepFrame _ _ _)).trans
      (conOut_stepFrame _ echo)
  | out bs => exact (link_stepFrame s).trans (conOut_stepFrame _ bs)
  | string r walk => exact (link_stepFrame s).trans (runString_stepFrame walk)
  | halt => exact ((link_stepFrame s).trans (conOut_stepFrame _ _)).trans (withRun_stepFrame _ false)

theorem fetch_stepFrame (s : State) : StepFrame s (fetch s).2 :=
  (WalkFrame.afterRead s s.pc).stepFrame.trans (setPc_stepFrame _ _)

/-- The whole of what a step can be (R150, R151). -/
theorem step_cases {s : State} {o : Host.Outcome State Fault Refusal} (h : step s = o) :
    (s.run = false ∧ o = .refused .notRunning) ∨
    (s.run = true ∧ ∃ r, s.routine = some r ∧ runString r s = o) ∨
    (s.run = true ∧ s.routine = none ∧ exec (decode (fetch s).1) (fetch s).2 = o) := by
  cases running : s.run with
  | false => exact .inl ⟨rfl, h.symm.trans (step_stopped running)⟩
  | true =>
    cases held : s.routine with
    | none => exact .inr (.inr ⟨rfl, rfl, (step_running running held).symm.trans h⟩)
    | some r => exact .inr (.inl ⟨rfl, r, rfl, (step_in_routine running held).symm.trans h⟩)

theorem step_stepFrame {s t : State} (h : step s = .next t) : StepFrame s t := by
  rcases step_cases h with ⟨-, e⟩ | ⟨-, r, -, e⟩ | ⟨-, -, e⟩
  · cases e
  · exact runString_stepFrame e
  · exact (fetch_stepFrame s).trans (exec_stepFrame e)

/-! ### The invariant -/

theorem condOf_oneHot (v : Word) : condOneHot (condOf v) = true := by
  rcases condOf_cases v with ⟨-, e⟩ | ⟨-, -, e⟩ | ⟨-, -, e⟩ <;> rw [e] <;> rfl

theorem exec_oneHot {i : Instr} {s t : State} (h : exec i s = .next t) (oneHot : condOneHot s.cond = true) :
    condOneHot t.cond = true := by
  cases runs_of_exec h with
  | result v => exact condOf_oneHot v
  | key => exact condOf_oneHot _
  | store =>
    rw [State.storeCell_cond, afterReads_cond]
    exact oneHot
  | string r walk =>
    obtain ⟨u, o, rfl, frame⟩ := runString_next walk
    rw [State.setRoutine_cond, frame.cond]
    exact oneHot
  | branch | jump | call | callRegister | wait | out | halt => exact oneHot

/-- A routine leaves COND, and R7 and `pc` as they stand to each other. -/
theorem runString_keeps {r : StringRoutine} {s t : State} (h : runString r s = .next t) :
    t.cond = s.cond ∧ (s.reg linkReg = s.pc → t.reg linkReg = t.pc) := by
  obtain ⟨u, o, rfl, frame⟩ := runString_next h
  exact ⟨frame.cond, fun linked => ((frame.regs linkReg).trans linked).trans frame.pc.symm⟩

/-- The invariant over one step: the frame gives memory and parameters; COND is one-hot where it is written; and a machine
in a routine has come to it by its link (R130), which the routine leaves. -/
theorem step_keeps_inv {s t : State} (h : step s = .next t) (inv : s.Inv) : t.Inv := by
  obtain ⟨wf, oneHot, params, linked⟩ := inv
  have frame := step_stepFrame h
  refine ⟨frame.wf wf, ?_, frame.cfg ▸ params, ?_⟩ <;>
    rcases step_cases h with ⟨-, e⟩ | ⟨-, r, held, e⟩ | ⟨-, idle, e⟩
  · cases e
  · rw [(runString_keeps e).1]
    exact oneHot
  · exact exec_oneHot e ((afterRead_cond s s.pc).symm ▸ oneHot)
  · cases e
  · exact fun _ => (runString_keeps e).2 (linked (by rw [held]; nofun))
  · intro still
    obtain ⟨q, held⟩ := Option.ne_none_iff_exists'.1 still
    obtain ⟨r, walk⟩ := exec_held e ((afterRead_routine s s.pc).trans idle) held
    exact (runString_keeps walk).2 (State.link_reg_self _)

/-- Settles O53: `step_keeps_inv`, and the frame of a step for the parameters. -/
theorem stepKeepsTheInvariant : Obligations.StepKeepsTheInvariant := fun _ _ h inv =>
  ⟨step_keeps_inv h inv, (step_stepFrame h).cfg⟩

theorem writeBlock_wf {m : Memory} (wf : m.wf = true) (a : Addr) (ws : List Word) : (writeBlock m a ws).wf = true := by
  induction ws generalizing m a with
  | nil => exact wf
  | cons w ws ih => exact ih (Memory.write_wf a w wf) (a + 1#16)

/-- What holds of `s` and is kept by every step holds of every state reached from `s`. -/
theorem Reaches.induct {P : State → Prop} (kept : ∀ {s t}, step s = .next t → P s → P t) {s t : State}
    (run : Reaches s t) (start : P s) : P t := by
  induction run with
  | refl => exact start
  | tail _ last ih => exact kept last ih

/-- Settles O54: construction and load meet the invariant, and every step keeps it. -/
theorem loadedMachineKeepsTheInvariant : Obligations.LoadedMachineKeepsTheInvariant := by
  intro cfg cond memInit queue arrivals supply img t params oneHot wf run
  exact run.induct step_keeps_inv ⟨writeBlock_wf wf img.origin img.payload, oneHot, params, fun held => absurd rfl held⟩

/-- Settles O55: each part is evaluated; no routine is held. -/
theorem resetMeetsTheInvariant : Obligations.ResetMeetsTheInvariant :=
  ⟨rfl, rfl, by decide, fun held => absurd rfl held⟩

/-- Settles O60: the step has run the routine, and a routine is held only where its loop is endless. -/
theorem onlyAnEndlessLoopOutlastsItsStep : Obligations.OnlyAnEndlessLoopOutlastsItsStep := by
  intro s t r h held
  rcases step_cases h with ⟨-, e⟩ | ⟨-, q, -, e⟩ | ⟨-, idle, e⟩
  · cases e
  · exact runString_held e held
  · obtain ⟨q, walk⟩ := exec_held e ((afterRead_routine s s.pc).trans idle) held
    exact runString_held walk held

/-! ### Console and keyboard stream -/

theorem exec_keeps_console {i : Instr} {s t : State} (h : exec i s = .next t) (notTrap : ∀ vect, i ≠ .trap vect) :
    t.console = s.console := by
  cases runs_of_exec h with
  | result | store => exact afterReads_console s _
  | branch | jump | call | callRegister => rfl
  | wait | key | out | string | halt => exact absurd rfl (notTrap _)

/-- Settles O49: the frame of a step, and an instruction but TRAP by its outcomes. -/
theorem consoleOnlyGrowsAndOnlyByTraps : Obligations.ConsoleOnlyGrowsAndOnlyByTraps := by
  intro s t h
  refine ⟨(step_stepFrame h).console, fun idle notTrap => ?_⟩
  have e := (step_running (run_of_step_next h) idle).symm.trans h
  exact (exec_keeps_console e notTrap).trans (afterRead_console s s.pc)

/-- Settles O50: the frame of a step. -/
theorem keyboardCharactersAreTakenInOrder : Obligations.KeyboardCharactersAreTakenInOrder := fun _ _ h =>
  (step_stepFrame h).stream

/-! ### Faults and refusals -/

/-- An instruction and a routine are refused only for want of a meaning (R136), and a running machine runs one of them. -/
theorem step_refused_of_running {s : State} {x : Refusal} (running : s.run = true) (h : step s = .refused x) :
    x = .putspZeroLow ∧ s.cfg.putspZeroLow = .refuse := by
  rcases step_cases h with ⟨stopped, -⟩ | ⟨-, r, -, e⟩ | ⟨-, -, e⟩
  · exact absurd (running.symm.trans stopped) nofun
  · obtain ⟨isZeroLow, -, refuse⟩ := runString_refused e
    exact ⟨isZeroLow, refuse⟩
  · obtain ⟨isZeroLow, -, refuse⟩ := exec_refused e
    exact ⟨isZeroLow, (fetch_stepFrame s).cfg ▸ refuse⟩

/-- Settles O38: by `step_refused_of_running` only a machine that has stopped is refused as not running. -/
theorem onlyAHaltedMachineTakesNoStep : Obligations.OnlyAHaltedMachineTakesNoStep := by
  refine fun s => ⟨⟨step_stopped, fun h => ?_⟩, fun running _ => step_refused_of_running running⟩
  by_contra running
  exact nomatch (step_refused_of_running (Bool.eq_true_of_not_eq_false running) h).1

theorem step_in_routine_ne_fault {s : State} (running : s.run = true) (held : s.routine ≠ none) (f : Fault) :
    step s ≠ .fault f := by
  obtain ⟨r, held⟩ := Option.ne_none_iff_exists'.1 held
  rw [step_in_routine running held]
  exact runString_ne_fault r s f

theorem fetch_cfg (s : State) : (fetch s).2.cfg = s.cfg :=
  afterRead_cfg s s.pc

theorem exec_illegal_rti_iff (i : Instr) (s : State) :
    i = .rti ↔ ∃ u, exec i s = .fault (.fatal (.illegalOpcode .rti) u) := by
  refine ⟨fun isRti => ⟨s, isRti ▸ rfl⟩, ?_⟩
  rintro ⟨u, e⟩
  rcases exec_fault_cases e with ⟨isRti, -⟩ | ⟨-, e⟩ | ⟨_, -, -, e⟩
  · exact isRti
  · cases e
  · cases e

theorem exec_illegal_res_iff (i : Instr) (s : State) :
    i = .res ↔ ∃ u, exec i s = .fault (.fatal (.illegalOpcode .res) u) := by
  refine ⟨fun isRes => ⟨s, isRes ▸ rfl⟩, ?_⟩
  rintro ⟨u, e⟩
  rcases exec_fault_cases e with ⟨-, e⟩ | ⟨isRes, -⟩ | ⟨_, -, -, e⟩
  · cases e
  · exact isRes
  · cases e

theorem exec_unknownVector_iff (i : Instr) (s : State) (vect : Word) :
    (i = .trap vect ∧ ¬ isKnownVector s vect) ↔ ∃ u, exec i s = .fault (.fatal (.unknownTrapVector vect) u) := by
  refine ⟨?_, ?_⟩
  · rintro ⟨rfl, unknown⟩
    exact ⟨_, exec_trap_unknown unknown⟩
  · rintro ⟨u, e⟩
    rcases exec_fault_cases e with ⟨-, e⟩ | ⟨-, e⟩ | ⟨_, isTrap, unknown, e⟩ <;> cases e
    exact ⟨isTrap, unknown⟩

/-- Where no condition is raised, an instruction answers a next state, or is refused for want of a meaning. -/
theorem exec_next_or_refused {i : Instr} {s : State} (notRti : i ≠ .rti) (notRes : i ≠ .res)
    (known : ∀ vect, i = .trap vect → isKnownVector s vect) :
    (∃ t, exec i s = .next t) ∨
      (i = .trap (zext8 s.cfg.trapPutsp) ∧ s.cfg.putspZeroLow = .refuse ∧ exec i s = .refused .putspZeroLow) := by
  cases e : exec i s with
  | next t => exact .inl ⟨t, rfl⟩
  | fault f =>
    rcases exec_fault_cases e with ⟨isRti, -⟩ | ⟨isRes, -⟩ | ⟨vect, isTrap, unknown, -⟩
    · exact absurd isRti notRti
    · exact absurd isRes notRes
    · exact absurd (known vect isTrap) unknown
  | refused x =>
    obtain ⟨rfl, isPutsp, refuse⟩ := exec_refused e
    exact .inr ⟨isPutsp, refuse, rfl⟩

/-- Settles O42: the step is the instruction's, on a state with the parameters of the one before. -/
theorem everyStepCompletesOrRaisesAListedCondition : Obligations.EveryStepCompletesOrRaisesAListedCondition := by
  refine ⟨?_, fun s running held => step_in_routine_ne_fault running held⟩
  rintro s i running idle rfl
  have completes := exec_next_or_refused (i := decode (fetch s).1) (s := (fetch s).2)
  have unknown := exec_unknownVector_iff (decode (fetch s).1) (fetch s).2
  simp only [isKnownVector, fetch_cfg] at completes unknown
  rw [step_running running idle]
  exact ⟨exec_illegal_rti_iff _ _, exec_illegal_res_iff _ _, unknown, completes⟩

/-- The state an instruction starts from: `pc` incremented, and the fetch's poll where it was at `KBSR_ADDR`. -/
theorem fetch_frame (s : State) :
    (fetch s).2.pc = s.pc + 1#16 ∧ (fetch s).2.cond = s.cond ∧ (fetch s).2.run = s.run ∧
    (fetch s).2.routine = s.routine ∧ (fetch s).2.console = s.console ∧ SameRegsExcept [] s (fetch s).2 ∧
    SameMemoryButKeyboard s (fetch s).2 ∧
    (s.pc ≠ s.cfg.kbsrAddr → SameMemory s (fetch s).2 ∧ SameKeyboard s (fetch s).2) := by
  have frame := WalkFrame.afterRead s s.pc
  refine ⟨rfl, frame.cond, frame.run, frame.routine, afterRead_console s s.pc, fun r _ => frame.regs r, frame.mem,
    fun plain => ?_⟩
  rw [fetch_plain plain]
  exact ⟨fun _ => rfl, rfl, rfl, rfl⟩

/-- Settles O43: a fatal error leaves what the fetch left, but for the link that a TRAP writes before it. -/
theorem fatalErrorFreezesTheMachine : Obligations.FatalErrorFreezesTheMachine := by
  intro s u reason h
  rcases step_cases h with ⟨-, e⟩ | ⟨-, r, -, e⟩ | ⟨running, idle, e⟩
  · cases e
  · exact absurd e (runString_ne_fault r s _)
  obtain ⟨pc, cond, run, routine, console, regs, memory, plain⟩ := fetch_frame s
  rcases exec_fault_cases e with ⟨-, e⟩ | ⟨-, e⟩ | ⟨vect, -, -, e⟩ <;> cases e
  case inl.refl | inr.inl.refl =>
    exact ⟨idle, routine.trans idle, pc, cond, run.trans running, console, fetch_cfg s, memory, fun _ _ => regs, nofun,
      plain⟩
  case inr.inr.refl =>
    have linkRegs : SameRegsExcept [7] s (fetch s).2.link := fun r other =>
      (link_sameRegsExcept (fetch s).2 r other).trans (regs r List.not_mem_nil)
    exact ⟨idle, routine.trans idle, pc, cond, run.trans running, console, fetch_cfg s, memory, nofun,
      fun _ _ => ⟨(State.link_reg_self _).trans pc, linkRegs⟩, plain⟩

/-! ### Status -/

/-- A step that answers a next state has stopped the machine exactly where it ran the halt trap (R29, R137). -/
theorem step_next_run_eq_false_iff {s t : State} (wf : configWf s.cfg = true) (h : step s = .next t) :
    t.run = false ↔ s.routine = none ∧ decode (memRead s s.pc).1 = .trap 0x0025#16 := by
  rcases step_cases h with ⟨-, e⟩ | ⟨running, r, held, e⟩ | ⟨running, idle, e⟩
  · cases e
  · obtain ⟨u, o, rfl, frame⟩ := runString_next e
    have still : (u.setRoutine o).run = true := frame.run.trans running
    exact iff_of_false (by rw [still]; nofun) (by rw [held]; nofun)
  · rw [← fetch_fst]
    by_cases halt : decode (fetch s).1 = .trap 0x0025#16
    · rw [halt] at e
      exact iff_of_true (exec_halt_clears_run ((fetch_cfg s).symm ▸ wf) e) ⟨idle, halt⟩
    · have still : t.run = true := (exec_keeps_run halt e).trans ((afterRead_run s s.pc).trans running)
      exact iff_of_false (by rw [still]; nofun) fun h => halt h.2

theorem statusAfter_next_eq_halted_iff (t : State) : statusAfter (.next t) = some .halted ↔ t.run = false := by
  cases run : t.run <;> simp [statusAfter, run]

/-- The halt trap answers a next state. -/
theorem step_halt {s : State} (running : s.run = true) (wf : configWf s.cfg = true) (idle : s.routine = none)
    (halt : decode (memRead s s.pc).1 = .trap 0x0025#16) : ∃ t, step s = .next t := by
  rw [step_running running idle, fetch_fst, halt]
  exact ⟨_, execTrap_halt ((fetch_cfg s).symm ▸ wf)⟩

/-- Settles O44: by the outcome of the step; a running machine is refused a step for want of a meaning only. -/
theorem statusReportsHowTheRunGoesOn : Obligations.StatusReportsHowTheRunGoesOn := by
  intro s running wf
  cases h : step s with
  | next t =>
    have halted := (statusAfter_next_eq_halted_iff t).trans (step_next_run_eq_false_iff wf h)
    refine ⟨halted, fun f => iff_of_false ?_ nofun, ?_, .inl rfl⟩
    · cases run : t.run <;> simp [statusAfter, run]
    · cases run : t.run <;> simp [statusAfter, run]
  | fault f =>
    refine ⟨iff_of_false nofun ?_, fun g => ?_, .inr (.inr (.inl ⟨f, rfl⟩)), .inl rfl⟩
    · rintro ⟨idle, halt⟩
      obtain ⟨t, e⟩ := step_halt running wf idle halt
      exact nomatch e.symm.trans h
    · simp [statusAfter]
  | refused x =>
    obtain ⟨rfl, -⟩ := step_refused_of_running running h
    refine ⟨iff_of_false nofun ?_, fun g => iff_of_false nofun nofun, .inr (.inr (.inr ⟨rfl, rfl⟩)), .inl rfl⟩
    rintro ⟨idle, halt⟩
    obtain ⟨t, e⟩ := step_halt running wf idle halt
    exact nomatch e.symm.trans h

end Sys2Proof.Machine
end

section
/-! PROOF. The fates of a run (R155): at most one, because a step is a function of the state, and at least one, because a
run that comes to no last state goes on for ever. -/

namespace Sys2Proof.Machine

/-! ### Runs -/

/-- No step of the machine answers a next state from here. -/
def Stuck (t : State) : Prop :=
  ∀ u, step t ≠ .next u

theorem Reaches.of_reachesIn {n : Nat} {s t : State} (run : ReachesIn n s t) : Reaches s t := by
  induction run with
  | zero => exact .refl _
  | succ _ last ih => exact .tail ih last

theorem Reaches.exists_reachesIn {s t : State} (run : Reaches s t) : ∃ n, ReachesIn n s t := by
  induction run with
  | refl => exact ⟨0, .zero _⟩
  | tail _ last ih =>
    obtain ⟨n, run⟩ := ih
    exact ⟨n + 1, .succ run last⟩

theorem ReachesIn.deterministic {n : Nat} {s t u : State} (run : ReachesIn n s t) (run' : ReachesIn n s u) : t = u := by
  induction run generalizing u with
  | zero => cases run'; rfl
  | succ _ last ih =>
    cases run' with
    | succ before last' =>
      cases ih before
      exact Host.Outcome.next.inj (last.symm.trans last')

/-- A run passes a state at each earlier number of steps. -/
theorem ReachesIn.earlier {m n : Nat} {s t : State} (run : ReachesIn n s t) (le : m ≤ n) : ∃ u, ReachesIn m s u := by
  induction run with
  | zero =>
    obtain rfl := Nat.le_zero.1 le
    exact ⟨_, .zero _⟩
  | @succ n _ _ _ before last ih =>
    rcases Nat.lt_or_eq_of_le le with lt | rfl
    · exact ih (Nat.le_of_lt_succ lt)
    · exact ⟨_, .succ before last⟩

/-- A run comes to no state after one it is stuck in. -/
theorem ReachesIn.stuck_le {m n : Nat} {s t u : State} (run : ReachesIn n s t) (stuck : Stuck t)
    (run' : ReachesIn m s u) : m ≤ n := by
  by_contra longer
  obtain ⟨v, later⟩ := run'.earlier (Nat.lt_of_not_le longer)
  cases later with
  | succ before last =>
    cases run.deterministic before
    exact stuck v last

/-- A run has one last state at most. -/
theorem Reaches.stuck_unique {s t u : State} (run : Reaches s t) (stuck : Stuck t) (run' : Reaches s u)
    (stuck' : Stuck u) : t = u := by
  obtain ⟨n, run⟩ := run.exists_reachesIn
  obtain ⟨m, run'⟩ := run'.exists_reachesIn
  obtain rfl : m = n := Nat.le_antisymm (run.stuck_le stuck run') (run'.stuck_le stuck' run)
  exact run.deterministic run'

/-! ### Fates -/

/-- How a run that has come to `t` ends there. -/
def EndsAt (t : State) : Fate → Prop
  | .halted => t.run = false
  | .faulted reason => step t = .fault reason
  | .noMeaning => step t = .refused .putspZeroLow
  | .never => False

theorem EndsAt.stuck {t : State} {f : Fate} (h : EndsAt t f) : Stuck t := by
  intro u e
  cases f with
  | halted => exact nomatch (step_stopped h).symm.trans e
  | faulted | noMeaning => exact nomatch (Eq.symm h).trans e
  | never => exact h

/-- A machine ends in one way. -/
theorem EndsAt.unique {t : State} {f g : Fate} (h : EndsAt t f) (h' : EndsAt t g) : f = g := by
  have outcome : ∀ {f}, EndsAt t f → (f = .halted ∧ step t = .refused .notRunning) ∨
      (∃ r, f = .faulted r ∧ step t = .fault r) ∨ (f = .noMeaning ∧ step t = .refused .putspZeroLow) := by
    intro f h
    cases f with
    | halted => exact .inl ⟨rfl, step_stopped h⟩
    | faulted r => exact .inr (.inl ⟨r, rfl, h⟩)
    | noMeaning => exact .inr (.inr ⟨rfl, h⟩)
    | never => exact h.elim
  rcases outcome h with ⟨rfl, e⟩ | ⟨r, rfl, e⟩ | ⟨rfl, e⟩ <;>
    rcases outcome h' with ⟨rfl, e'⟩ | ⟨r', rfl, e'⟩ | ⟨rfl, e'⟩ <;> cases e.symm.trans e' <;> rfl

/-- A machine without a next state ends there, in one of the three ways. -/
theorem Stuck.endsAt {t : State} (stuck : Stuck t) : ∃ f, EndsAt t f := by
  cases e : step t with
  | next u => exact absurd e (stuck u)
  | fault r => exact ⟨.faulted r, e⟩
  | refused x =>
    cases running : t.run with
    | false => exact ⟨.halted, running⟩
    | true =>
      obtain ⟨rfl, -⟩ := step_refused_of_running running e
      exact ⟨.noMeaning, e⟩

/-- A fate is an end that is reached, or a run at every number of steps. -/
theorem hasFate_iff {s : State} (f : Fate) :
    HasFate s f ↔ (∃ t, Reaches s t ∧ EndsAt t f) ∨ (f = .never ∧ ∀ n, ∃ t, ReachesIn n s t ∧ t.run = true) := by
  cases f with
  | never => exact ⟨fun h => .inr ⟨rfl, h⟩, fun h => h.elim (fun ⟨_, _, h⟩ => h.elim) And.right⟩
  | halted | faulted | noMeaning => exact ⟨.inl, fun h => h.resolve_right fun h => nomatch h.1⟩

/-- A run that is never stuck goes on, and is running at each of its states. -/
theorem hasFate_never_of_not_stuck {s : State} (goes : ∀ t, Reaches s t → ¬ Stuck t) : HasFate s .never := by
  have next : ∀ t, Reaches s t → ∃ u, step t = .next u := fun t run => by
    simpa [Stuck] using goes t run
  intro n
  induction n with
  | zero =>
    obtain ⟨u, e⟩ := next s (.refl s)
    exact ⟨s, .zero s, run_of_step_next e⟩
  | succ n ih =>
    obtain ⟨t, run, -⟩ := ih
    obtain ⟨u, e⟩ := next t (.of_reachesIn run)
    obtain ⟨v, e'⟩ := next u (.tail (.of_reachesIn run) e)
    exact ⟨u, .succ run e, run_of_step_next e'⟩

theorem not_hasFate_never_of_stuck {s t : State} (run : Reaches s t) (stuck : Stuck t) : ¬ HasFate s .never := by
  intro never
  obtain ⟨n, run⟩ := run.exists_reachesIn
  obtain ⟨u, run', -⟩ := never (n + 1)
  exact Nat.not_succ_le_self n (run.stuck_le stuck run')

theorem hasFate_exists (s : State) : ∃ f, HasFate s f := by
  by_cases ends : ∃ t, Reaches s t ∧ Stuck t
  · obtain ⟨t, run, stuck⟩ := ends
    obtain ⟨f, h⟩ := stuck.endsAt
    exact ⟨f, (hasFate_iff f).2 (.inl ⟨t, run, h⟩)⟩
  · exact ⟨.never, hasFate_never_of_not_stuck fun t run stuck => ends ⟨t, run, stuck⟩⟩

theorem hasFate_unique {s : State} {f g : Fate} (h : HasFate s f) (h' : HasFate s g) : g = f := by
  rcases (hasFate_iff f).1 h with ⟨t, run, ends⟩ | ⟨rfl, -⟩ <;>
    rcases (hasFate_iff g).1 h' with ⟨u, run', ends'⟩ | ⟨rfl, -⟩
  · cases run.stuck_unique ends.stuck run' ends'.stuck
    exact ends'.unique ends
  · exact absurd h' (not_hasFate_never_of_stuck run ends.stuck)
  · exact absurd h (not_hasFate_never_of_stuck run' ends'.stuck)
  · rfl

/-- Settles O45: the meaning is wanting only where the parameter is `refuse`, and no step changes a parameter. -/
theorem aRunHasExactlyOneFate : Obligations.ARunHasExactlyOneFate := by
  intro s _
  obtain ⟨f, fate⟩ := hasFate_exists s
  refine ⟨⟨f, fate, fun _ => hasFate_unique fate⟩, fun meaning => ?_⟩
  rintro ⟨t, run, e⟩
  have cfg : t.cfg = s.cfg := run.induct (P := fun t => t.cfg = s.cfg)
    (fun h same => (step_stepFrame h).cfg.trans same) rfl
  cases running : t.run with
  | false => exact nomatch (step_stopped running).symm.trans e
  | true => exact meaning (cfg ▸ (step_refused_of_running running e).2)

/-! ### Endless string routines -/

/-- A machine in a string routine whose loop is endless. -/
def Hangs (s : State) : Prop :=
  s.run = true ∧ ∃ r, s.routine = some r ∧ Endless r s

/-- The step of a routine whose loop is endless leaves the machine hanging. -/
theorem runString_hangs {r : StringRoutine} {s : State} (running : s.run = true) (endless : Endless r s) :
    ∃ t, runString r s = .next t ∧ Hangs t := by
  obtain ⟨u, e, -⟩ := runString_endless endless
  obtain ⟨v, o, same, frame⟩ := runString_next e
  have run : (u.setRoutine (some r)).run = true := by
    rw [same]
    exact frame.run.trans running
  exact ⟨_, e, run, r, rfl, runString_held e rfl⟩

theorem Hangs.step {s : State} (hangs : Hangs s) : ∃ t, step s = .next t ∧ Hangs t := by
  obtain ⟨running, r, held, endless⟩ := hangs
  rw [step_in_routine running held]
  exact runString_hangs running endless

theorem Hangs.never {s : State} (hangs : Hangs s) : HasFate s .never := by
  refine hasFate_never_of_not_stuck fun t run stuck => ?_
  have still : Hangs t := run.induct (P := Hangs) (fun h hangs => ?_) hangs
  · obtain ⟨u, e, -⟩ := still.step
    exact stuck u e
  · obtain ⟨u, e, later⟩ := hangs.step
    cases e.symm.trans h
    exact later

/-- A step before a run that never ends. -/
theorem hasFate_never_of_step {s t : State} (h : step s = .next t) (never : HasFate t .never) : HasFate s .never := by
  have after : ∀ {n u}, ReachesIn n t u → ReachesIn (n + 1) s u := by
    intro n u run
    induction run with
    | zero => exact .succ (.zero s) h
    | succ _ last ih => exact .succ (ih h never) last
  intro n
  cases n with
  | zero => exact ⟨s, .zero s, run_of_step_next h⟩
  | succ n =>
    obtain ⟨u, run, running⟩ := never n
    exact ⟨u, after run, running⟩

/-- The TRAP of a routine whose loop is endless never ends the run. -/
theorem hasFate_never_of_trap {s : State} {r : StringRoutine} (running : s.run = true) (idle : s.routine = none)
    (wf : configWf s.cfg = true) (plain : s.pc ≠ s.cfg.kbsrAddr)
    (trap : decode (s.mem.read s.pc) = .trap (routineVector s.cfg r))
    (noEnd : ∀ t, ¬ WalkEnds (routineWrites s.cfg r) (s.reg 0) (s.setPc (s.pc + 1#16)).link t)
    (meaning : ¬ WalkHasNoMeaning (routineWrites s.cfg r) (s.reg 0) (s.setPc (s.pc + 1#16)).link) :
    HasFate s .never := by
  have data : (s.setPc (s.pc + 1#16)).link.reg dataReg = s.reg 0 := link_reg_dataReg (s.setPc (s.pc + 1#16))
  have endless : Endless r (s.setPc (s.pc + 1#16)).link := by
    rw [Endless, data]
    exact ⟨noEnd, meaning⟩
  obtain ⟨t, e, hangs⟩ := runString_hangs (s := (s.setPc (s.pc + 1#16)).link) running endless
  refine hasFate_never_of_step (t := t) ?_ hangs.never
  rw [step_plain running idle plain, trap]
  exact (exec_string (s := s.setPc (s.pc + 1#16)) wf r).trans e

/-- Settles O47: a machine in such a routine hangs, and its TRAP comes to one. -/
theorem stringWithoutAnEndIsNoFault : Obligations.StringWithoutAnEndIsNoFault :=
  ⟨fun _ r running held noEnd meaning => Hangs.never ⟨running, r, held, noEnd, meaning⟩,
    fun _ _ => hasFate_never_of_trap⟩

/-- Settles O48: with a key at each poll the loop of PUTS comes to no zero word, and every word has a meaning to it. -/
theorem putsOverFullMemoryWithAKeyAtEachPollHangs : Obligations.PutsOverFullMemoryWithAKeyAtEachPollHangs :=
  fun _ _ running idle wf plain trap key queue arrivals supply full =>
    hasFate_never_of_trap (r := .puts) running idle wf plain trap
      (fun _ => walkEnds_not_of_key_at_each_poll key (configWf_addr wf) queue arrivals supply full)
      (puts_has_meaning _ _)

end Sys2Proof.Machine
end

section
/-! PROOF. The state after reset (R35, R180), and the files that are no image (R184). -/

namespace Sys2Proof.Machine

theorem State.reset_reg (r : Reg) : State.reset.reg r = 0x0000#16 := by
  rw [State.reg]
  exact Vector.getElem_replicate r.isLt

/-- The image of one word, the origin 0x0000, loaded into the machine after reset leaves it. -/
theorem reset_boot : State.reset.boot [0x00#8, 0x00#8] = some State.reset :=
  State.boot_of_ofBytes (Image.ofBytes_of_words (img := ⟨0x0000#16, []⟩) rfl (Image.wf_of_no_payload _)) State.reset

/-- Settles O56: each field by evaluation, and `reset_boot`. -/
theorem resetState : Obligations.ResetState :=
  ⟨State.reset_reg, rfl, rfl, rfl, Memory.read_nil, rfl, rfl, rfl, rfl, rfl, reset_boot⟩

/-- A pair of bytes leaves the parity of the length. -/
theorem length_cons_cons_mod_two (hi lo : Byte) (rest : List Byte) :
    (hi :: lo :: rest).length % 2 = rest.length % 2 :=
  Nat.add_mod_right rest.length 2

theorem wordsOfBytes_of_odd {file : List Byte} (odd : file.length % 2 = 1) : wordsOfBytes file = none := by
  induction file using wordsOfBytes.induct with
  | case1 => cases odd
  | case2 => rfl
  | case3 hi lo rest ih =>
    rw [wordsOfBytes, ih ((length_cons_cons_mod_two hi lo rest).symm.trans odd), Option.map_none]

theorem wordsOfBytes_of_even {file : List Byte} (even : file.length % 2 = 0) :
    ∃ ws, wordsOfBytes file = some ws ∧ ws.length = file.length / 2 := by
  induction file using wordsOfBytes.induct with
  | case1 => exact ⟨[], rfl, rfl⟩
  | case2 => cases even
  | case3 hi lo rest ih =>
    obtain ⟨ws, words, length⟩ := ih ((length_cons_cons_mod_two hi lo rest).symm.trans even)
    refine ⟨(hi ++ lo) :: ws, by rw [wordsOfBytes, words, Option.map_some], ?_⟩
    simp only [List.length_cons]
    omega

theorem Image.ofBytes_isSome_iff {file : List Byte} {img : Image}
    (words : wordsOfBytes file = some (img.origin :: img.payload)) :
    (Image.ofBytes file).isSome = true ↔ img.payload.length ≤ 65536 - img.origin.toNat := by
  rw [Image.ofBytes, words]
  show (if img.wf = true then some img else none).isSome = true ↔ _
  rw [Option.isSome_ite, Image.wf, decide_eq_true_eq]

/-- Settles O59: a file of odd length is no list of words; one of even length is, the first its origin, and it is an image
where the others fit. -/
theorem malformedImagesAreRefused : Obligations.MalformedImagesAreRefused := by
  refine fun file => ⟨fun odd => by rw [Image.ofBytes, wordsOfBytes_of_odd odd], rfl, ?_⟩
  rintro b0 b1 rest rfl even
  obtain ⟨ws, words, length⟩ := wordsOfBytes_of_even ((length_cons_cons_mod_two b0 b1 rest).symm.trans even)
  rw [← length, ← byte_append_toNat]
  exact Image.ofBytes_isSome_iff (img := ⟨b0 ++ b1, ws⟩) (by rw [wordsOfBytes, words, Option.map_some])

end Sys2Proof.Machine
end
